-- ==== Sys2Proof/Word.lean ====
section
/-! DEFINITION. The word types of SMRP-CODEC: bytes, 16-bit values and 64-bit command words
(spec/00_scope.md R7, spec/30_encoding.md R60). -/

namespace Sys2Proof

/-- A byte, 8 bits (R7). -/
abbrev Byte := BitVec 8

/-- A 16-bit value: an operand field, a CRC, the result register R (R7). -/
abbrev Half := BitVec 16

/-- A command word, 64 bits, the block's only command length (R60, R67). -/
abbrev Cmd := BitVec 64

end Sys2Proof
end

