-- ==== Sys2Proof/Syntax.lean ====
section
/-! DEFINITION. The commands of SMRP-CODEC, one constructor per row of spec/opcode_table.json, and
the terms of the assembly syntax (spec/30_encoding.md R68, R69). -/

namespace Sys2Proof

/-- A command with its operands (R62). Every operand field is unsigned and 16 bits wide, the
`byte` of CRCSTEP is 8 bits wide (R7, R62), so that a term of this type always has a word. -/
inductive Instr where
  /-- CRC16 off, len (R82) -/
  | crc16 (off len : Half)
  /-- CRCSTEP crc, byte (R84) -/
  | crcstep (crc : Half) (byte : Byte)
  /-- RDU16 off (R90) -/
  | rdu16 (off : Half)
  /-- WRU16 off, value (R92) -/
  | wru16 (off value : Half)
  /-- PACK off, N, bbase (R96) -/
  | pack (off n bbase : Half)
  /-- UNPACK off, N, bbase (R99) -/
  | unpack (off n bbase : Half)
  /-- CHKCRC off, len (R110) -/
  | chkcrc (off len : Half)
  /-- APPCRC off, len (R113) -/
  | appcrc (off len : Half)
  deriving DecidableEq, Repr

/-- A line of assembly (R68) or a pseudo-command (R69), its operands as written: numbers of any
size. Which of them have a word is `AsmCmd.wellFormed`. -/
inductive AsmCmd where
  | crc16 (off len : Nat)
  | crcstep (crc byte : Nat)
  | rdu16 (off : Nat)
  | wru16 (off value : Nat)
  | pack (off n bbase : Nat)
  | unpack (off n bbase : Nat)
  | chkcrc (off len : Nat)
  | appcrc (off len : Nat)
  /-- CHKFRAME len, a pseudo-command for CHKCRC 0, len -/
  | chkframe (len : Nat)
  /-- SEALFRAME len, a pseudo-command for APPCRC 0, len -/
  | sealframe (len : Nat)
  deriving DecidableEq, Repr

end Sys2Proof
end

