-- ==== Sys2Proof/Decode.lean ====
section
/-! DEFINITION. The command word (spec/30_encoding.md Part 1): its fields, the opcode table, the
decoder, which is total and rejects by name, and the encoder. -/

namespace Sys2Proof

/-! ### Fields (R61) -/

/-- OPC, bits [7:0]. -/
def fieldOPC (w : Cmd) : Byte := w.extractLsb' 0 8
/-- FA, bits [23:8]. -/
def fieldFA (w : Cmd) : Half := w.extractLsb' 8 16
/-- FB, bits [39:24]. -/
def fieldFB (w : Cmd) : Half := w.extractLsb' 24 16
/-- FC, bits [55:40]. -/
def fieldFC (w : Cmd) : Half := w.extractLsb' 40 16
/-- RSV, bits [63:56]. -/
def fieldRSV (w : Cmd) : Byte := w.extractLsb' 56 8

/-- Word = {RSV, FC, FB, FA, OPC} (R61). -/
def packWord (rsv : Byte) (fc fb fa : Half) (opc : Byte) : Cmd :=
  rsv ++ fc ++ fb ++ fa ++ opc

/-! ### Opcodes (R62, R63) -/

/-- The operation codes that are not reserved. -/
inductive Opcode where
  | crc16 | crcstep | rdu16 | wru16 | pack | unpack | chkcrc | appcrc
  deriving DecidableEq, Repr

/-- The number of an operation code (R62). -/
def Opcode.code : Opcode → Byte
  | .crc16 => 0x01
  | .crcstep => 0x02
  | .rdu16 => 0x03
  | .wru16 => 0x04
  | .pack => 0x05
  | .unpack => 0x06
  | .chkcrc => 0x07
  | .appcrc => 0x08

/-- The operation code with a number; 0x00 and 0x09 to 0xFF are reserved (R64). -/
def Opcode.ofByte (b : Byte) : Option Opcode :=
  match b.toNat with
  | 1 => some .crc16
  | 2 => some .crcstep
  | 3 => some .rdu16
  | 4 => some .wru16
  | 5 => some .pack
  | 6 => some .unpack
  | 7 => some .chkcrc
  | 8 => some .appcrc
  | _ => none

/-- The operation code of a command. -/
def Instr.opcode : Instr → Opcode
  | .crc16 _ _ => .crc16
  | .crcstep _ _ => .crcstep
  | .rdu16 _ => .rdu16
  | .wru16 _ _ => .wru16
  | .pack _ _ _ => .pack
  | .unpack _ _ _ => .unpack
  | .chkcrc _ _ => .chkcrc
  | .appcrc _ _ => .appcrc

/-- RSV and every field R62 marks "must be 0" is 0 (R65). -/
def zeroFieldsOk (op : Opcode) (w : Cmd) : Bool :=
  fieldRSV w == 0 &&
    match op with
    | .crc16 | .wru16 | .chkcrc | .appcrc => fieldFC w == 0
    | .crcstep => (fieldFB w).extractLsb' 8 8 == (0 : Byte) && fieldFC w == 0
    | .rdu16 => fieldFB w == 0 && fieldFC w == 0
    | .pack | .unpack => true

/-- The command with a given operation code and the operands of a word (R62). -/
def takeOperands (op : Opcode) (w : Cmd) : Instr :=
  match op with
  | .crc16 => .crc16 (fieldFA w) (fieldFB w)
  | .crcstep => .crcstep (fieldFA w) ((fieldFB w).extractLsb' 0 8)
  | .rdu16 => .rdu16 (fieldFA w)
  | .wru16 => .wru16 (fieldFA w) (fieldFB w)
  | .pack => .pack (fieldFA w) (fieldFB w) (fieldFC w)
  | .unpack => .unpack (fieldFA w) (fieldFB w) (fieldFC w)
  | .chkcrc => .chkcrc (fieldFA w) (fieldFB w)
  | .appcrc => .appcrc (fieldFA w) (fieldFB w)

/-! ### The decoder (R66) -/

/-- Why a word is no command. Both are IllegalCommand (R121). -/
inductive DecodeError where
  /-- OPC is 0x00 or 0x09 to 0xFF (R64). -/
  | reservedOpcode
  /-- OPC is valid, and RSV or a must-be-zero field is not 0 (R65). -/
  | nonzeroReserved
  deriving DecidableEq, Repr

/-- The decoder: total, reads no state (R66), checks the opcode first and the zero fields second
(spec/60_exceptions.md R125). -/
def decode (w : Cmd) : Except DecodeError Instr :=
  match Opcode.ofByte (fieldOPC w) with
  | none => .error .reservedOpcode
  | some op => if zeroFieldsOk op w then .ok (takeOperands op w) else .error .nonzeroReserved

/-! ### The encoder (R61, R62, R68) -/

/-- The word of a command; fields marked "must be 0" are 0. -/
def encode : Instr → Cmd
  | .crc16 off len => packWord 0 0 len off 0x01
  | .crcstep crc byte => packWord 0 0 ((0 : Byte) ++ byte) crc 0x02
  | .rdu16 off => packWord 0 0 0 off 0x03
  | .wru16 off value => packWord 0 0 value off 0x04
  | .pack off n bbase => packWord 0 bbase n off 0x05
  | .unpack off n bbase => packWord 0 bbase n off 0x06
  | .chkcrc off len => packWord 0 0 len off 0x07
  | .appcrc off len => packWord 0 0 len off 0x08

/-! ### The opcode table as data (R63, spec/opcode_table.json) -/

/-- One row of the table. -/
structure TableRow where
  op : Opcode
  pattern : Cmd
  mask : Cmd
  deriving DecidableEq, Repr

/-- The row matches the word: `word & mask == match` (R63). -/
def TableRow.hits (r : TableRow) (w : Cmd) : Bool := w &&& r.mask == r.pattern

/-- The eight rows, in the table's order. -/
def opcodeTable : List TableRow :=
  [ ⟨.crc16, 0x0000000000000001, 0xFFFFFF00000000FF⟩,
    ⟨.crcstep, 0x0000000000000002, 0xFFFFFFFF000000FF⟩,
    ⟨.rdu16, 0x0000000000000003, 0xFFFFFFFFFF0000FF⟩,
    ⟨.wru16, 0x0000000000000004, 0xFFFFFF00000000FF⟩,
    ⟨.pack, 0x0000000000000005, 0xFF000000000000FF⟩,
    ⟨.unpack, 0x0000000000000006, 0xFF000000000000FF⟩,
    ⟨.chkcrc, 0x0000000000000007, 0xFFFFFF00000000FF⟩,
    ⟨.appcrc, 0x0000000000000008, 0xFFFFFF00000000FF⟩ ]

/-! ### The table's numbering of bits -/

/-- The 64-bit word whose low `nbits` bits are those of `w` and whose other bits are 0, where
there is one. The table's bit 0 is the word's bit 0, as in R61. -/
def tableWord (nbits w : Nat) : Option Cmd :=
  if w % 2 ^ nbits < 2 ^ 64 then some (BitVec.ofNat 64 (w % 2 ^ nbits)) else none

/-- What the decoder reads from a table row's bits. -/
def decodeTableWord (nbits w : Nat) : Option Instr :=
  match tableWord nbits w with
  | none => none
  | some c =>
    match decode c with
    | .ok i => some i
    | .error _ => none

end Sys2Proof
end

