-- ==== Sys2Proof/Config.lean ====
section
/-! DEFINITION. What is fixed for one machine (the parameters of spec/00_scope.md R6) and the free
values: what the spec leaves to a draw. The free values are opaque and have no body, so that a
claim about them holds whatever they are. -/

namespace Sys2Proof

/-- The two size parameters of R6. A machine keeps them for its whole life: `State.cfg` holds
them and no step writes them (log entry 1). -/
structure Config where
  /-- Number of bytes in B. -/
  bufLen : Nat
  /-- Number of bits in BA. -/
  bitLen : Nat
  deriving DecidableEq, Repr

/-- The default values of R6. -/
def Config.standard : Config := ⟨256, 2000⟩

/-- The legal values of R6: `BUF_LEN` 3 to 65535, `BIT_LEN` 1 to 65535. -/
def Config.legal (c : Config) : Bool :=
  decide (3 ≤ c.bufLen) && decide (c.bufLen ≤ 65535) &&
    decide (1 ≤ c.bitLen) && decide (c.bitLen ≤ 65535)

/-- FREE VALUE: the byte B[a] holds after reset number `epoch`, until something writes it (R140:
"each byte is an independent draw"; log entry 4). -/
opaque Config.resetByte (epoch a : Nat) : Byte

/-- FREE VALUE: the bit BA[i] holds after reset number `epoch`, until something writes it (R140;
log entry 4). -/
opaque Config.resetBit (epoch i : Nat) : Bool

/-- FREE VALUE: where PACK takes its padding bits from: padding bit k of the last byte is bit k
(R97, the parameter `pad` of R6; log entry 5). `draw` numbers the PACKs of a run, `word` is the
command word. -/
opaque Config.padBits (draw : Nat) (word : Cmd) : Byte

end Sys2Proof
end

