-- ==== Sys2Proof/Machine/State.lean ====
section
/-! DEFINITION. The state of SMRP-CODEC (spec/10_state.md), the host's moves
(spec/70_reset_and_hazards.md R146), the reasons a step can stop, and the state after reset
(R140). -/

namespace Sys2Proof.Machine

/-- B: the bytes written since reset, as (address, byte) pairs with rising addresses. A byte that
is not listed has not been written since reset and reads as a draw (R140; log entry 4). -/
abbrev Memory := List Host.Cell

/-- BA: the bits written since reset, as (index, bit) pairs with rising indexes, in the same form
as `Memory`. -/
abbrev BitArray := List (Nat × Bool)

/-- The cause of the fault record (spec/60_exceptions.md R124); `Cause.code` gives its number. -/
inductive Cause where
  /-- 0: FAULT is clear. -/
  | noFault
  /-- 1: IllegalCommand (R121). -/
  | illegalCommand
  /-- 2: OperandFault (R120). -/
  | operandFault
  deriving DecidableEq, Repr

/-- What the host may do between commands (R146), and a reset that abandons a command (R141). -/
inductive HostMove where
  /-- write byte B[a] -/
  | writeByte (a : Nat) (v : Byte)
  /-- read byte B[a] -/
  | readByte (a : Nat)
  /-- write bit BA[i] -/
  | writeBit (i : Nat) (v : Bool)
  /-- read bit BA[i] -/
  | readBit (i : Nat)
  /-- read R -/
  | readR
  /-- read OK -/
  | readOk
  /-- read FAULT and the fault record -/
  | readFault
  /-- issue one command word on the command port -/
  | issue (w : Cmd)
  /-- apply reset between commands -/
  | reset
  /-- issue a command word and apply reset while the command executes (R141); the word is issued,
  so that it has no step while FAULT is set (R127; log entry 18) -/
  | resetDuring (w : Cmd)
  deriving DecidableEq, Repr

/-- What a read of the host's returns (R146). -/
inductive HostData where
  | byte (v : Byte)
  | bit (v : Bool)
  | result (v : Half)
  | status (v : Bool)
  /-- FAULT, the cause and the word; no word while the cause is 0, since it is then "never read"
  (R140; log entry 20). -/
  | record (fault : Bool) (cause : Cause) (word : Option Cmd)
  /-- The read faulted and returned no value: R or OK was read while its written mark was clear
  (R25, R26: "a fault of the host's observation"; log entry 10). The block itself goes on. -/
  | observationFault
  deriving DecidableEq, Repr

/-- The state of the machine. `cfg` to `faultWord` are the spec's, `epoch` to `hostRead` the
model's own (INVENTORY.md, State). -/
structure State where
  /-- The parameters of the machine (R6); no step writes them. -/
  cfg : Config
  /-- The frame buffer B (R20). -/
  b : Memory
  /-- The bit array BA (R22). -/
  ba : BitArray
  /-- The 16 bits of the result register R (R24). -/
  r : Half
  /-- R's written mark (R24). -/
  rWritten : Bool
  /-- The status bit OK (R26). -/
  ok : Bool
  /-- OK's written mark (R26). -/
  okWritten : Bool
  /-- The mark FAULT (R28). -/
  fault : Bool
  /-- The fault record's cause (R124). -/
  cause : Cause
  /-- The fault record's word (R124). -/
  faultWord : Cmd
  /-- Model's own: how many resets there have been; the index of the reset draws (log entry 4). -/
  epoch : Nat
  /-- Model's own: how many PACKs have drawn a pad; the index of the pad draws (log entry 5). -/
  padDraws : Nat
  /-- Model's own: the host's moves to come, oldest first (D17; log entry 2). -/
  hostMoves : List HostMove
  /-- Model's own: what the host's last read returned (log entry 10). -/
  hostRead : Option HostData
  deriving DecidableEq, Repr

/-- Why a step stops with a fault. -/
inductive Fault where
  /-- A command issued while FAULT is set: "a command issued in that state has no step" (R127).
  Raised by every command and by the host's moves `issue` and `resetDuring`. Safe: the model stops
  where the spec has no step (log entry 9). -/
  | commandWhileFaulted
  deriving DecidableEq, Repr

/-- Why a step is refused. -/
inductive Refusal where
  /-- An instruction without a meaning. Raised by an arm of `exec` and by no meaning. Safe. -/
  | notModelled (mnemonic : String)
  /-- A host access to a byte at or beyond BUF_LEN: "has no meaning and is refused" (R146).
  Raised by `readByte` and `writeByte`. Safe. -/
  | hostAccessOutsideB (a : Nat)
  /-- A host access to a bit at or beyond BIT_LEN (R146). Raised by `readBit` and `writeBit`.
  Safe. -/
  | hostAccessOutsideBA (i : Nat)
  deriving DecidableEq, Repr

/-- The state right after reset (R140) of a machine with the default parameters (R6). The values
of `r`, `ok` and `faultWord` are the model's choice and no read shows them (log entries 6, 7, 8). -/
def State.reset : State where
  cfg := Config.standard
  b := []
  ba := []
  r := 0
  rWritten := false
  ok := false
  okWritten := false
  fault := false
  cause := .noFault
  faultWord := 0
  epoch := 0
  padDraws := 0
  hostMoves := []
  hostRead := none

end Sys2Proof.Machine
end

