-- ==== Sys2Proof/Machine/Ops.lean ====
section
/-! DEFINITION. The named operations over B, BA, R, OK and the fault record: every read and every
write of the state goes through them. Taking a fault is `State.raise`, the way out of one is
`State.applyReset`. -/

namespace Sys2Proof.Machine

/-- What a command or a move answers. -/
abbrev Answer := Host.Outcome State Fault Refusal

/-! ### Cells: values by key, in one canonical form -/

/-- The value listed under a key. -/
def lookupCell {α : Type} (a : Nat) : List (Nat × α) → Option α
  | [] => none
  | (k, v) :: rest => if k = a then some v else lookupCell a rest

/-- The list with one key's value replaced or put in its place. -/
def storeCell {α : Type} (a : Nat) (v : α) : List (Nat × α) → List (Nat × α)
  | [] => [(a, v)]
  | (k, w) :: rest =>
    if a < k then (a, v) :: (k, w) :: rest
    else if a = k then (a, v) :: rest
    else (k, w) :: storeCell a v rest

/-- Every key is less than all later ones. -/
def risingCells {α : Type} : List (Nat × α) → Bool
  | [] => true
  | (k, _) :: rest => rest.all (fun c => decide (k < c.1)) && risingCells rest

/-- Every key is below a limit. -/
def cellsBelow {α : Type} (limit : Nat) (m : List (Nat × α)) : Bool :=
  m.all (fun c => decide (c.1 < limit))

/-- The canonical form of B. An unlisted address holds no written value, so that no entry can
equal it, and rising addresses are the whole condition (log entry 4). -/
def Memory.wf (m : Memory) : Bool := risingCells m

/-- The canonical form of BA. -/
def BitArray.wf (m : BitArray) : Bool := risingCells m

/-! ### B (R9, R20, R47) -/

/-- What a byte of B reads as while nothing has written it since reset (R140, R142). -/
def unlistedByte (epoch a : Nat) : Byte := Config.resetByte epoch a

/-- `B[a]`. -/
def State.readByte (s : State) (a : Nat) : Byte :=
  (lookupCell a s.b).getD (unlistedByte s.epoch a)

/-- `B[a] <- v`. -/
def State.writeByte (s : State) (a : Nat) (v : Byte) : State :=
  { s with b := storeCell a v s.b }

/-- `B[a..a+n)`, that is `MemRead(a, n)`, in offset order. -/
def State.readBytes (s : State) (a : Nat) : Nat → List Byte
  | 0 => []
  | n + 1 => s.readByte a :: s.readBytes (a + 1) n

/-- `MemWrite(a, n, v)` for the n bytes of a sequence, in offset order. -/
def State.writeBytes (s : State) (a : Nat) : List Byte → State
  | [] => s
  | v :: vs => (s.writeByte a v).writeBytes (a + 1) vs

/-! ### BA (R9, R22, R47) -/

/-- What a bit of BA reads as while nothing has written it since reset (R140, R142). -/
def unlistedBit (epoch i : Nat) : Bool := Config.resetBit epoch i

/-- `BA[i]`. -/
def State.readBit (s : State) (i : Nat) : Bool :=
  (lookupCell i s.ba).getD (unlistedBit s.epoch i)

/-- `BA[i] <- v`. -/
def State.writeBit (s : State) (i : Nat) (v : Bool) : State :=
  { s with ba := storeCell i v s.ba }

/-- Writes the bits of a sequence to BA from index i on. -/
def State.writeBits (s : State) (i : Nat) : List Bool → State
  | [] => s
  | v :: vs => (s.writeBit i v).writeBits (i + 1) vs

/-! ### Bounds (R44): sums over the naturals, no wrap -/

/-- `a + n <= BUF_LEN`. -/
def State.hasBytes (s : State) (a n : Nat) : Bool := decide (a + n ≤ s.cfg.bufLen)

/-- `i + n <= BIT_LEN`. -/
def State.hasBits (s : State) (i n : Nat) : Bool := decide (i + n ≤ s.cfg.bitLen)

/-! ### R and OK (R24, R26) -/

/-- `R <- v`, which sets R's written mark. -/
def State.setR (s : State) (v : Half) : State := { s with r := v, rWritten := true }

/-- `OK <- v`, which sets OK's written mark. -/
def State.setOk (s : State) (v : Bool) : State := { s with ok := v, okWritten := true }

/-- The next pad draw is used up (R97). -/
def State.tickPad (s : State) : State := { s with padDraws := s.padDraws + 1 }

/-! ### Faults (spec/60_exceptions.md) and reset (spec/70_reset_and_hazards.md) -/

/-- A command is taken only while FAULT is clear; in a faulted state it has no step (R127). -/
def State.accept (s : State) (o : Answer) : Answer :=
  if s.fault then .fault .commandWhileFaulted else o

/-- Taking a fault: FAULT and the fault record are written and nothing else (R122, R124). There is
no vector, no handler and no mode change (R126). -/
def State.raise (s : State) (c : Cause) (w : Cmd) : State :=
  { s with fault := true, cause := c, faultWord := w }

/-- `raise OperandFault`: the record holds the word of the command that faulted (R120, R124). Each
command has exactly one word, so that it is `encode` of it (log entry 12). -/
def State.operandFault (s : State) (i : Instr) : Answer :=
  .next (s.raise .operandFault (encode i))

/-- `raise IllegalCommand` for a word that is no command (R121). -/
def State.illegalCommand (s : State) (w : Cmd) : Answer :=
  .next (s.raise .illegalCommand w)

/-- Reset (R140): the only way out of a faulted state (R127). B and BA are fresh draws. The
parameters and the host's own fields stay (log entry 18). -/
def State.applyReset (s : State) : State :=
  { State.reset with
    cfg := s.cfg
    epoch := s.epoch + 1
    padDraws := s.padDraws
    hostMoves := s.hostMoves
    hostRead := s.hostRead }

end Sys2Proof.Machine
end

