-- ==== Sys2Proof/Machine/Operands.lean ====
section
/-! DEFINITION. The operand forms: halves and bytes (spec/20_memory.md R40, R41), bitmaps
(spec/41_field_codec.md R95), and each command's footprint (R45). -/

namespace Sys2Proof.Machine

/-! ### Halves and bytes -/

/-- `v[15:8]`. -/
def hiByte (v : Half) : Byte := v.extractLsb' 8 8

/-- `v[7:0]`. -/
def loByte (v : Half) : Byte := v.extractLsb' 0 8

/-- `{hi, lo}`. -/
def joinBytes (hi lo : Byte) : Half := hi ++ lo

/-- A 16-bit field of B: the byte at the lower offset is the high one (R40). -/
def State.readField (s : State) (o : Nat) : Half :=
  joinBytes (s.readByte o) (s.readByte (o + 1))

/-- Writes a 16-bit field of B, high byte first (R40). -/
def State.writeField (s : State) (o : Nat) (v : Half) : State :=
  (s.writeByte o (hiByte v)).writeByte (o + 1) (loByte v)

/-- The CRC a trailer at offset o encodes: the byte at the lower offset is the low one (R41). -/
def State.readTrailer (s : State) (o : Nat) : Half :=
  joinBytes (s.readByte (o + 1)) (s.readByte o)

/-- Writes a CRC trailer, low byte first (R41). -/
def State.writeTrailer (s : State) (o : Nat) (c : Half) : State :=
  (s.writeByte o (loByte c)).writeByte (o + 1) (hiByte c)

/-! ### Bitmaps -/

/-- `ceil8(N)`, the bytes that hold N bits (R9). -/
def ceil8 (n : Nat) : Nat := (n + 7) / 8

/-- The byte whose bit k is `f k`. -/
def byteOfBits (f : Nat → Bool) : Byte :=
  BitVec.ofBoolListLE [f 0, f 1, f 2, f 3, f 4, f 5, f 6, f 7]

/-- Byte j of the bitmap PACK writes: bit k is logical bit 8*j + k, or a padding bit where that is
not below N (R95, R96, R97). -/
def State.packedByte (s : State) (n bbase : Nat) (pad : Byte) (j : Nat) : Byte :=
  byteOfBits fun k => if 8 * j + k < n then s.readBit (bbase + (8 * j + k)) else pad.getLsbD k

/-- The bitmap PACK writes, `ceil8(N)` bytes. -/
def State.packedBytes (s : State) (n bbase : Nat) (pad : Byte) : List Byte :=
  (List.range (ceil8 n)).map (s.packedByte n bbase pad)

/-- Logical bit i of a bitmap at offset `off`: bit i mod 8 of B[off + i div 8] (R95). -/
def State.bitmapBit (s : State) (off i : Nat) : Bool :=
  (s.readByte (off + i / 8)).getLsbD (i % 8)

/-- The N logical bits of a bitmap at offset `off`. -/
def State.bitmapBits (s : State) (off n : Nat) : List Bool :=
  (List.range n).map (s.bitmapBit off)

/-! ### Footprints (R45) -/

/-- A run of locations: `len` of them from `start` on. -/
structure Span where
  start : Nat
  len : Nat
  deriving DecidableEq, Repr

/-- What a command reaches: none where it does not touch the memory at all. -/
structure Footprint where
  bReads : Option Span
  bWrites : Option Span
  baReads : Option Span
  baWrites : Option Span
  deriving DecidableEq, Repr

/-- The span holds a location. -/
def spanHolds (p : Option Span) (a : Nat) : Bool :=
  match p with
  | none => false
  | some q => decide (q.start ≤ a) && decide (a < q.start + q.len)

/-- The span ends at or below a limit, an empty one too (R44). -/
def spanFits (p : Option Span) (limit : Nat) : Bool :=
  match p with
  | none => true
  | some q => decide (q.start + q.len ≤ limit)

/-- The footprint of a command (the table of R45). -/
def footprint : Instr → Footprint
  | .crc16 off len => ⟨some ⟨off.toNat, len.toNat⟩, none, none, none⟩
  | .crcstep _ _ => ⟨none, none, none, none⟩
  | .rdu16 off => ⟨some ⟨off.toNat, 2⟩, none, none, none⟩
  | .wru16 off _ => ⟨none, some ⟨off.toNat, 2⟩, none, none⟩
  | .pack off n bbase =>
    ⟨none, some ⟨off.toNat, ceil8 n.toNat⟩, some ⟨bbase.toNat, n.toNat⟩, none⟩
  | .unpack off n bbase =>
    ⟨some ⟨off.toNat, ceil8 n.toNat⟩, none, none, some ⟨bbase.toNat, n.toNat⟩⟩
  | .chkcrc off len =>
    if len.toNat ≤ 2 then ⟨none, none, none, none⟩
    else ⟨some ⟨off.toNat, len.toNat⟩, none, none, none⟩
  | .appcrc off len =>
    if len.toNat ≤ 2 then ⟨none, none, none, none⟩
    else ⟨some ⟨off.toNat, len.toNat - 2⟩, some ⟨off.toNat + len.toNat - 2, 2⟩, none, none⟩

/-- The whole footprint, reads and writes alike, is inside B and BA (R44, R45). -/
def footprintFits (c : Config) (f : Footprint) : Bool :=
  spanFits f.bReads c.bufLen && spanFits f.bWrites c.bufLen &&
    spanFits f.baReads c.bitLen && spanFits f.baWrites c.bitLen

end Sys2Proof.Machine
end

