-- ==== Sys2Proof/Machine/Checksum.lean ====
section
/-! DEFINITION. The CRC functions and the checksum commands CRC16 and CRCSTEP
(spec/40_checksum.md). The details R80 and R81 mark as general knowledge are log entry 17. -/

namespace Sys2Proof.Machine

/-! ### The CRC functions (R80, R81) -/

/-- The reflected polynomial 0xA001. -/
def crcPoly : Half := 0xA001

/-- The initial value 0xFFFF. -/
def crcInit : Half := 0xFFFF

/-- One of the 8 iterations of a byte: test bit 0, shift right, then XOR the polynomial. -/
def crcBit (c : Half) : Half :=
  if c.getLsbD 0 then (c >>> 1) ^^^ crcPoly else c >>> 1

/-- n iterations. -/
def crcBits (c : Half) : Nat → Half
  | 0 => c
  | n + 1 => crcBits (crcBit c) n

/-- `crc16_step(c, b)` (R80). -/
def crc16Step (c : Half) (b : Byte) : Half :=
  crcBits (c ^^^ b.zeroExtend 16) 8

/-- The accumulator after the bytes of a sequence, in order. -/
def crcFold (c : Half) : List Byte → Half
  | [] => c
  | b :: bs => crcFold (crc16Step c b) bs

/-- `crc16(s)` (R81): no final XOR and no swap. -/
def crc16 (bs : List Byte) : Half := crcFold crcInit bs

/-! ### The commands -/

/-- CRC16 off, len (R82). -/
def execCrc16 (off len : Half) (s : State) : Answer :=
  s.accept <|
    if s.hasBytes off.toNat len.toNat then
      .next ((s.setR (crc16 (s.readBytes off.toNat len.toNat))).setOk true)
    else s.operandFault (.crc16 off len)

/-- CRCSTEP crc, byte (R84). -/
def execCrcstep (crc : Half) (byte : Byte) (s : State) : Answer :=
  s.accept <| .next ((s.setR (crc16Step crc byte)).setOk true)

end Sys2Proof.Machine
end

