-- ==== Sys2Proof/Machine/FieldCodec.lean ====
section
/-! DEFINITION. The field codec commands RDU16, WRU16, PACK and UNPACK (spec/41_field_codec.md). -/

namespace Sys2Proof.Machine

/-- RDU16 off (R90). -/
def execRdu16 (off : Half) (s : State) : Answer :=
  s.accept <|
    if s.hasBytes off.toNat 2 then
      .next ((s.setR (s.readField off.toNat)).setOk true)
    else s.operandFault (.rdu16 off)

/-- WRU16 off, value (R92): R is unchanged. -/
def execWru16 (off value : Half) (s : State) : Answer :=
  s.accept <|
    if s.hasBytes off.toNat 2 then
      .next ((s.writeField off.toNat value).setOk true)
    else s.operandFault (.wru16 off value)

/-- The pad PACK draws in a state (R97; log entry 5). -/
def State.pad (s : State) (off n bbase : Half) : Byte :=
  Config.padBits s.padDraws (encode (.pack off n bbase))

/-- PACK off, N, bbase (R96, R97). -/
def execPack (off n bbase : Half) (s : State) : Answer :=
  s.accept <|
    if s.hasBytes off.toNat (ceil8 n.toNat) && s.hasBits bbase.toNat n.toNat then
      .next
        ((((s.writeBytes off.toNat
            (s.packedBytes n.toNat bbase.toNat (s.pad off n bbase))).tickPad).setR
          (BitVec.ofNat 16 (ceil8 n.toNat))).setOk true)
    else s.operandFault (.pack off n bbase)

/-- UNPACK off, N, bbase (R99). -/
def execUnpack (off n bbase : Half) (s : State) : Answer :=
  s.accept <|
    if s.hasBytes off.toNat (ceil8 n.toNat) && s.hasBits bbase.toNat n.toNat then
      .next
        (((s.writeBits bbase.toNat (s.bitmapBits off.toNat n.toNat)).setR
          (BitVec.ofNat 16 (ceil8 n.toNat))).setOk true)
    else s.operandFault (.unpack off n bbase)

end Sys2Proof.Machine
end

