-- ==== Sys2Proof/Machine/Flags.lean ====
section
/-! DEFINITION. The computations behind OK, the block's only flag (spec/10_state.md R27): the
verdict of CHKCRC, the validity of a frame (spec/30_encoding.md R70), and the numbers of the fault
causes (spec/60_exceptions.md R124). -/

namespace Sys2Proof.Machine

/-- The payload CRC of a frame: the CRC of its first len - 2 bytes (R70, R110, R113). -/
def State.payloadCrc (s : State) (off len : Nat) : Half :=
  crc16 (s.readBytes off (len - 2))

/-- The verdict of CHKCRC: the two trailer bytes are the CRC's, low byte first (R110). -/
def State.trailerMatches (s : State) (off len : Nat) (c : Half) : Bool :=
  s.readByte (off + len - 2) == loByte c && s.readByte (off + len - 1) == hiByte c

/-- A frame is valid (R70): `L > 2` and the payload's CRC is `{B[off+L-1], B[off+L-2]}`. -/
def State.frameValid (s : State) (off len : Nat) : Bool :=
  decide (len > 2) &&
    (s.payloadCrc off len ==
      joinBytes (s.readByte (off + len - 1)) (s.readByte (off + len - 2)))

/-- The cause codes (R124). -/
def Cause.code : Cause → Nat
  | .noFault => 0
  | .illegalCommand => 1
  | .operandFault => 2

end Sys2Proof.Machine
end

