-- ==== Sys2Proof/Machine/FrameEnvelope.lean ====
section
/-! DEFINITION. The frame envelope commands CHKCRC and APPCRC (spec/42_frame_envelope.md). The
check of `len <= 2` comes before the bound (spec/60_exceptions.md R125). -/

namespace Sys2Proof.Machine

/-- CHKCRC off, len (R110). -/
def execChkcrc (off len : Half) (s : State) : Answer :=
  s.accept <|
    if len.toNat ≤ 2 then .next (s.setOk false)
    else if s.hasBytes off.toNat len.toNat then
      .next
        ((s.setR (s.payloadCrc off.toNat len.toNat)).setOk
          (s.trailerMatches off.toNat len.toNat (s.payloadCrc off.toNat len.toNat)))
    else s.operandFault (.chkcrc off len)

/-- APPCRC off, len (R113). -/
def execAppcrc (off len : Half) (s : State) : Answer :=
  s.accept <|
    if len.toNat ≤ 2 then .next (s.setOk false)
    else if s.hasBytes off.toNat len.toNat then
      .next
        (((s.writeTrailer (off.toNat + len.toNat - 2) (s.payloadCrc off.toNat len.toNat)).setR
          (s.payloadCrc off.toNat len.toNat)).setOk true)
    else s.operandFault (.appcrc off len)

end Sys2Proof.Machine
end

