-- ==== Sys2Proof/Machine/Dispatch.lean ====
section
/-! DEFINITION. The dispatch: one arm per command. -/

namespace Sys2Proof.Machine

/-- What a command does in a state. -/
def exec (i : Instr) (s : State) : Host.Outcome State Fault Refusal :=
  match i with
  | .crc16 off len => Sys2Proof.Machine.execCrc16 off len s
  | .crcstep crc byte => Sys2Proof.Machine.execCrcstep crc byte s
  | .rdu16 off => Sys2Proof.Machine.execRdu16 off s
  | .wru16 off value => Sys2Proof.Machine.execWru16 off value s
  | .pack off n bbase => Sys2Proof.Machine.execPack off n bbase s
  | .unpack off n bbase => Sys2Proof.Machine.execUnpack off n bbase s
  | .chkcrc off len => Sys2Proof.Machine.execChkcrc off len s
  | .appcrc off len => Sys2Proof.Machine.execAppcrc off len s

end Sys2Proof.Machine
end

