-- ==== Sys2Proof/Machine/HostPort.lean ====
section
/-! DEFINITION. The host's moves (spec/70_reset_and_hazards.md R146, R141). -/

namespace Sys2Proof.Machine

/-- The host's read returns a value. -/
def State.returns (s : State) (d : HostData) : State := { s with hostRead := some d }

/-- A command word arrives on the command port: decode, then execute, or IllegalCommand (R66,
R121, R125); no step while FAULT is set (R127). -/
def issueWord (w : Cmd) (s : State) : Answer :=
  match decode w with
  | .ok i => exec i s
  | .error _ => s.accept (s.illegalCommand w)

/-- The fault record as the host reads it: no word while the cause is 0 (R124, R140). -/
def State.faultRecord (s : State) : HostData :=
  .record s.fault s.cause (if s.cause = .noFault then none else some s.faultWord)

/-- R as the host reads it: no value while its written mark is clear, never zero (R25). -/
def State.observedR (s : State) : HostData :=
  if s.rWritten then .result s.r else .observationFault

/-- OK as the host reads it: no value while its written mark is clear (R26). -/
def State.observedOk (s : State) : HostData :=
  if s.okWritten then .status s.ok else .observationFault

/-- One move of the host (R146). A reset that abandons a command leaves what a reset leaves
(R141); in a faulted state there is no command to abandon, since the word issued there has no step
(R127; log entry 18). -/
def hostMove (m : HostMove) (s : State) : Answer :=
  match m with
  | .writeByte a v =>
    if a < s.cfg.bufLen then .next (s.writeByte a v) else .refused (.hostAccessOutsideB a)
  | .readByte a =>
    if a < s.cfg.bufLen then .next (s.returns (.byte (s.readByte a)))
    else .refused (.hostAccessOutsideB a)
  | .writeBit i v =>
    if i < s.cfg.bitLen then .next (s.writeBit i v) else .refused (.hostAccessOutsideBA i)
  | .readBit i =>
    if i < s.cfg.bitLen then .next (s.returns (.bit (s.readBit i)))
    else .refused (.hostAccessOutsideBA i)
  | .readR => .next (s.returns s.observedR)
  | .readOk => .next (s.returns s.observedOk)
  | .readFault => .next (s.returns s.faultRecord)
  | .issue w => issueWord w s
  | .reset => .next s.applyReset
  | .resetDuring _ => s.accept (.next s.applyReset)

end Sys2Proof.Machine
end

