-- ==== Sys2Proof/Machine/Step.lean ====
section
/-! DEFINITION. One step of the machine: the host's next move. Where the host has no further move,
the state stays as it is (log entry 3); what ends a run is Machine/RunEnd.lean. -/

namespace Sys2Proof.Machine

/-- The machine takes the host's next move. -/
def step (s : State) : Host.Outcome State Fault Refusal :=
  match s.hostMoves with
  | [] => .next s
  | m :: rest => hostMove m { s with hostMoves := rest }

/-- The host issues the word next: commands are not fetched from B (R52), they come from the host
(R60; log entry 2). -/
def State.withFetchWord (s : State) (nbits w : Nat) : State :=
  match tableWord nbits w with
  | none => s
  | some c => { s with hostMoves := .issue c :: s.hostMoves }

end Sys2Proof.Machine
end

