-- ==== Sys2Proof/WellFormed.lean ====
section
/-! DEFINITION. Which written commands have a command word: every operand fits its field
(spec/30_encoding.md R68). A term of `Instr` fits by its types; the check is about `AsmCmd`. -/

namespace Sys2Proof

/-- The number can be written in a field of `width` bits. -/
def fits (width n : Nat) : Bool := decide (n < 2 ^ width)

/-- Every operand fits its field: 16 bits, or 8 bits for `byte` (R68). -/
def AsmCmd.wellFormed : AsmCmd → Bool
  | .crc16 off len => fits 16 off && fits 16 len
  | .crcstep crc byte => fits 16 crc && fits 8 byte
  | .rdu16 off => fits 16 off
  | .wru16 off value => fits 16 off && fits 16 value
  | .pack off n bbase => fits 16 off && fits 16 n && fits 16 bbase
  | .unpack off n bbase => fits 16 off && fits 16 n && fits 16 bbase
  | .chkcrc off len => fits 16 off && fits 16 len
  | .appcrc off len => fits 16 off && fits 16 len
  | .chkframe len => fits 16 len
  | .sealframe len => fits 16 len

end Sys2Proof
end

