-- ==== Sys2Proof/Machine/Assembly.lean ====
section
/-! DEFINITION. The assembly syntax (spec/30_encoding.md R68, R69): from text to command words. What
the text may hold beside R68's forms is log entry 16. Text is a list of characters. -/

namespace Sys2Proof.Machine

/-! ### From a written command to a command -/

/-- The command of a written command whose operands fit; a pseudo-command expands (R69). -/
def expandAsm : AsmCmd → Instr
  | .crc16 off len => .crc16 (BitVec.ofNat 16 off) (BitVec.ofNat 16 len)
  | .crcstep crc byte => .crcstep (BitVec.ofNat 16 crc) (BitVec.ofNat 8 byte)
  | .rdu16 off => .rdu16 (BitVec.ofNat 16 off)
  | .wru16 off value => .wru16 (BitVec.ofNat 16 off) (BitVec.ofNat 16 value)
  | .pack off n bbase => .pack (BitVec.ofNat 16 off) (BitVec.ofNat 16 n) (BitVec.ofNat 16 bbase)
  | .unpack off n bbase =>
    .unpack (BitVec.ofNat 16 off) (BitVec.ofNat 16 n) (BitVec.ofNat 16 bbase)
  | .chkcrc off len => .chkcrc (BitVec.ofNat 16 off) (BitVec.ofNat 16 len)
  | .appcrc off len => .appcrc (BitVec.ofNat 16 off) (BitVec.ofNat 16 len)
  | .chkframe len => .chkcrc 0 (BitVec.ofNat 16 len)
  | .sealframe len => .appcrc 0 (BitVec.ofNat 16 len)

/-- Assembles a written command; no word where an operand does not fit its field (R68). -/
def assemble (c : AsmCmd) : Option Cmd :=
  if c.wellFormed then some (encode (expandAsm c)) else none

/-! ### Operands in text: decimal, or hex after 0x -/

/-- The value of a decimal digit. -/
def decDigit (c : Char) : Option Nat :=
  if '0' ≤ c ∧ c ≤ '9' then some (c.toNat - 48) else none

/-- The value of a hex digit, of either case. -/
def hexDigit (c : Char) : Option Nat :=
  if '0' ≤ c ∧ c ≤ '9' then some (c.toNat - 48)
  else if 'A' ≤ c ∧ c ≤ 'F' then some (c.toNat - 55)
  else if 'a' ≤ c ∧ c ≤ 'f' then some (c.toNat - 87)
  else none

/-- The number a row of digits writes, most significant first, after `acc`. -/
def digitsFrom (digit : Char → Option Nat) (base acc : Nat) : List Char → Option Nat
  | [] => some acc
  | c :: cs =>
    match digit c with
    | none => none
    | some d => digitsFrom digit base (base * acc + d) cs

/-- One operand: at least one digit. -/
def parseOperand (cs : List Char) : Option Nat :=
  match cs with
  | [] => none
  | ['0', 'x'] => none
  | '0' :: 'x' :: ds => digitsFrom hexDigit 16 0 ds
  | ds => digitsFrom decDigit 10 0 ds

/-- The parts of a text between a comma and a space. -/
def splitOperands : List Char → List (List Char)
  | [] => [[]]
  | ',' :: ' ' :: cs => [] :: splitOperands cs
  | c :: cs =>
    match splitOperands cs with
    | [] => [[c]]
    | p :: ps => (c :: p) :: ps

/-- The operands of a text, all of them or none. -/
def parseOperands : List (List Char) → Option (List Nat)
  | [] => some []
  | p :: ps =>
    match parseOperand p, parseOperands ps with
    | some n, some ns => some (n :: ns)
    | _, _ => none

/-! ### Lines -/

/-- The mnemonics of R62. -/
def mnemonicText : Opcode → List Char
  | .crc16 => ['C', 'R', 'C', '1', '6']
  | .crcstep => ['C', 'R', 'C', 'S', 'T', 'E', 'P']
  | .rdu16 => ['R', 'D', 'U', '1', '6']
  | .wru16 => ['W', 'R', 'U', '1', '6']
  | .pack => ['P', 'A', 'C', 'K']
  | .unpack => ['U', 'N', 'P', 'A', 'C', 'K']
  | .chkcrc => ['C', 'H', 'K', 'C', 'R', 'C']
  | .appcrc => ['A', 'P', 'P', 'C', 'R', 'C']

/-- CHKFRAME (R69). -/
def chkframeText : List Char := ['C', 'H', 'K', 'F', 'R', 'A', 'M', 'E']

/-- SEALFRAME (R69). -/
def sealframeText : List Char := ['S', 'E', 'A', 'L', 'F', 'R', 'A', 'M', 'E']

/-- The command with a mnemonic and operands, in the forms of R68 and R69. -/
def namedCommand (name : List Char) (ops : List Nat) : Option AsmCmd :=
  match ops with
  | [a] =>
    if name = mnemonicText .rdu16 then some (.rdu16 a)
    else if name = chkframeText then some (.chkframe a)
    else if name = sealframeText then some (.sealframe a)
    else none
  | [a, b] =>
    if name = mnemonicText .crc16 then some (.crc16 a b)
    else if name = mnemonicText .crcstep then some (.crcstep a b)
    else if name = mnemonicText .wru16 then some (.wru16 a b)
    else if name = mnemonicText .chkcrc then some (.chkcrc a b)
    else if name = mnemonicText .appcrc then some (.appcrc a b)
    else none
  | [a, b, c] =>
    if name = mnemonicText .pack then some (.pack a b c)
    else if name = mnemonicText .unpack then some (.unpack a b c)
    else none
  | _ => none

/-- A line without its comment and without the spaces before it (R68). -/
def stripComment (line : List Char) : List Char :=
  ((line.takeWhile (· != ';')).reverse.dropWhile (· == ' ')).reverse

/-- A command as text: the mnemonic, one space, the operands (R68). -/
def parseCommand (cs : List Char) : Option AsmCmd :=
  match cs.dropWhile (· != ' ') with
  | [] => none
  | _ :: ops =>
    match parseOperands (splitOperands ops) with
    | none => none
    | some ns => namedCommand (cs.takeWhile (· != ' ')) ns

/-- The words of one line: one word, none for a line with no command, or an assembly error. -/
def assembleLine (line : List Char) : Option (List Cmd) :=
  match stripComment line with
  | [] => some []
  | cs =>
    match parseCommand cs with
    | none => none
    | some c =>
      match assemble c with
      | none => none
      | some w => some [w]

/-- The lines of a text. -/
def splitLines : List Char → List (List Char)
  | [] => [[]]
  | c :: cs =>
    if c = '\n' then [] :: splitLines cs
    else
      match splitLines cs with
      | [] => [[c]]
      | p :: ps => (c :: p) :: ps

/-- The words of some lines, all of them or none. -/
def assembleLines : List (List Char) → Option (List Cmd)
  | [] => some []
  | l :: ls =>
    match assembleLine l, assembleLines ls with
    | some ws, some vs => some (ws ++ vs)
    | _, _ => none

/-- The words of a program text, one command per line (R68). -/
def assembleText (text : List Char) : Option (List Cmd) := assembleLines (splitLines text)

/-! ### Writing a command as text -/

/-- The hex digit of a number below 16. -/
def hexChar (n : Nat) : Char :=
  ['0', '1', '2', '3', '4', '5', '6', '7', '8', '9', 'A', 'B', 'C', 'D', 'E', 'F'].getD n '0'

/-- A 16-bit operand in hex. -/
def hexHalf (v : Half) : List Char :=
  ['0', 'x', hexChar (v.toNat / 4096), hexChar (v.toNat / 256 % 16), hexChar (v.toNat / 16 % 16),
    hexChar (v.toNat % 16)]

/-- An 8-bit operand in hex. -/
def hexByte (v : Byte) : List Char :=
  ['0', 'x', hexChar (v.toNat / 16), hexChar (v.toNat % 16)]

/-- The operands of a command in FA, FB, FC order. -/
def operandTexts : Instr → List (List Char)
  | .crc16 off len => [hexHalf off, hexHalf len]
  | .crcstep crc byte => [hexHalf crc, hexByte byte]
  | .rdu16 off => [hexHalf off]
  | .wru16 off value => [hexHalf off, hexHalf value]
  | .pack off n bbase => [hexHalf off, hexHalf n, hexHalf bbase]
  | .unpack off n bbase => [hexHalf off, hexHalf n, hexHalf bbase]
  | .chkcrc off len => [hexHalf off, hexHalf len]
  | .appcrc off len => [hexHalf off, hexHalf len]

/-- Operands, each but the last followed by a comma and a space. -/
def joinOperands : List (List Char) → List Char
  | [] => []
  | [p] => p
  | p :: ps => p ++ ',' :: ' ' :: joinOperands ps

/-- The line that writes a command in R68's form: the mnemonic, one space, the operands in hex. -/
def asmText (i : Instr) : List Char :=
  mnemonicText i.opcode ++ ' ' :: joinOperands (operandTexts i)

end Sys2Proof.Machine
end

