-- ==== Sys2Proof/Machine/RunEnd.lean ====
section
/-! DEFINITION. The end of a run and its success (spec/70_reset_and_hazards.md R148,
spec/60_exceptions.md R127). -/

namespace Sys2Proof.Machine

/-- The move issues a command word, to be executed or to be abandoned by a reset (log entry 24). -/
def HostMove.issues : HostMove → Bool
  | .issue _ => true
  | .resetDuring _ => true
  | .writeByte _ _ | .readByte _ | .writeBit _ _ | .readBit _ => false
  | .readR | .readOk | .readFault | .reset => false

/-- No move of the list issues a command word. -/
def noCommand (moves : List HostMove) : Bool := moves.all fun m => !m.issues

/-- The run has ended: "the host issues no further command" (R148), whatever else it still does. -/
abbrev State.ended (s : State) : Prop := noCommand s.hostMoves = true

/-- The end of a run in which a list of moves is still to come: the first state after which no
command is issued, or the stop before it. -/
def endAfter (moves : List HostMove) (s : State) : Answer :=
  match moves with
  | [] => .next s
  | m :: rest =>
    if noCommand (m :: rest) then .next s
    else
      match step s with
      | .next t => endAfter rest t
      | .fault f => .fault f
      | .refused r => .refused r

/-- The end state of the run from a state: "B, BA, R and OK as the last command left them" (R148).
What the host does after its last command does not reach it. -/
def State.endOfRun (s : State) : Answer := endAfter s.hostMoves s

/-- No state is faulted from here to the end of a run in which a list of moves is still to come,
and the run comes to its end. -/
def cleanAfter (moves : List HostMove) (s : State) : Bool :=
  match moves with
  | [] => !s.fault
  | m :: rest =>
    !s.fault &&
      (noCommand (m :: rest) ||
        match step s with
        | .next t => cleanAfter rest t
        | .fault _ => false
        | .refused _ => false)

/-- The run from a state ends successfully: FAULT is clear at its end (R148) and in every state
before, since a faulted state "refutes any claim that the run succeeds", a reset after it or not
(R127; log entry 23). -/
def State.runSucceeds (s : State) : Bool := cleanAfter s.hostMoves s

end Sys2Proof.Machine
end

