-- ==== Sys2Proof/Safety.lean ====
section
/-! DEFINITION. The terms claims are made in: the invariant of the machine, which moves
reset it, and what a command leaves as it was. -/

namespace Sys2Proof.Machine

/-! ### The invariant -/

/-- What every state of a run meets: the parameters are legal (R6), B and BA are in canonical form
and list nothing beyond their ends (R20, R22), the cause is 0 exactly while FAULT is clear (R124),
and R's written mark is never set without OK's (R24, R26: every command that writes R writes OK). -/
abbrev State.Inv (s : State) : Prop :=
  s.cfg.legal = true ∧
  Memory.wf s.b = true ∧ cellsBelow s.cfg.bufLen s.b = true ∧
  BitArray.wf s.ba = true ∧ cellsBelow s.cfg.bitLen s.ba = true ∧
  (s.fault = false ↔ s.cause = .noFault) ∧
  (s.rWritten = true → s.okWritten = true)

/-! ### Moves -/

/-- The move applies reset. -/
def HostMove.resets : HostMove → Bool
  | .reset => true
  | .resetDuring _ => true
  | _ => false

/-! ### Frames -/

/-- Every byte of B reads as before. -/
abbrev sameB (s t : State) : Prop := ∀ a, t.readByte a = s.readByte a

/-- Every bit of BA reads as before. -/
abbrev sameBA (s t : State) : Prop := ∀ i, t.readBit i = s.readBit i

/-- R and its written mark are as before. -/
abbrev sameR (s t : State) : Prop := t.r = s.r ∧ t.rWritten = s.rWritten

/-- OK and its written mark are as before. -/
abbrev sameOk (s t : State) : Prop := t.ok = s.ok ∧ t.okWritten = s.okWritten

/-- FAULT and the fault record are as before. -/
abbrev sameRecord (s t : State) : Prop :=
  t.fault = s.fault ∧ t.cause = s.cause ∧ t.faultWord = s.faultWord

/-- The parameters and the model's own fields other than the pad counter are as before. -/
abbrev sameSetting (s t : State) : Prop :=
  t.cfg = s.cfg ∧ t.epoch = s.epoch ∧ t.hostMoves = s.hostMoves ∧ t.hostRead = s.hostRead

/-- R holds a value that a command wrote. -/
abbrev holdsR (t : State) (v : Half) : Prop := t.r = v ∧ t.rWritten = true

/-- OK holds a value that a command wrote. -/
abbrev holdsOk (t : State) (v : Bool) : Prop := t.ok = v ∧ t.okWritten = true

/-- Every word with an operation code is the command its operand fields give while the fields that
must be 0 are, and raises IllegalCommand otherwise (R62, R65). -/
def wordForm (opc : Byte) (zeroFields : Cmd → Prop) (command : Cmd → Instr) : Prop :=
  ∀ (w : Cmd) (s : State), s.fault = false → fieldOPC w = opc →
    (zeroFields w → issueWord w s = exec (command w) s) ∧
    (¬ zeroFields w → issueWord w s = .next (s.raise .illegalCommand w))

/-! ### The per-byte CRC over several commands (spec/40_checksum.md R85) -/

/-- The host issues CRCSTEP for each byte of a sequence, with the R of each as the accumulator of
the next: the last accumulator and the state, none where a command does not complete. -/
def crcstepChain : List Byte → Half → State → Option (Half × State)
  | [], c, s => some (c, s)
  | b :: bs, c, s =>
    match exec (.crcstep c b) s with
    | .next t => crcstepChain bs t.r t
    | _ => none

end Sys2Proof.Machine
end

