-- ==== Sys2Proof/Certificates/Slice0/Obligations.lean ====
section
/-! DEFINITION. The statements for the provers. Each docstring names the rule of spec/ it
formalises. A statement about a free value (a reset draw, a padding bit) holds whatever its value
is. -/

open Sys2Proof Sys2Proof.Machine

/-! ### Encoding (spec/30_encoding.md) -/

/-- R62, R66: decoding the word of a command gives the command back, every operand at every value. -/
def Obligations.EncodedCommandDecodesToItself : Prop :=
  ∀ i : Instr, decode (encode i) = .ok i

/-- R65, R66: a word that decodes is the word of its command: the decoder ignores no bit. -/
def Obligations.DecodedWordIsItsCommandsWord : Prop :=
  ∀ (w : Cmd) (i : Instr), decode w = .ok i → encode i = w

/-- R63: a word decodes to a row exactly when `word & mask == match`, and at most one row matches. -/
def Obligations.WordDecodesToTheRowItMatches : Prop :=
  (∀ (w : Cmd) (row : TableRow), row ∈ opcodeTable →
    (w &&& row.mask = row.pattern ↔ ∃ i, decode w = .ok i ∧ i.opcode = row.op)) ∧
  (∀ (w : Cmd) (row row' : TableRow), row ∈ opcodeTable → row' ∈ opcodeTable →
    w &&& row.mask = row.pattern → w &&& row'.mask = row'.pattern → row = row') ∧
  (∀ i : Instr, ∃ row ∈ opcodeTable, row.op = i.opcode)

/-- R64: a reserved OPC raises IllegalCommand; the all-zero word does. -/
def Obligations.ReservedOpcodeRaisesIllegalCommand : Prop :=
  ∀ (w : Cmd) (s : State), s.fault = false →
    (fieldOPC w = 0 ∨ 9 ≤ (fieldOPC w).toNat ∨ w = 0) →
    issueWord w s = .next (s.raise .illegalCommand w)

/-- R65: with a valid OPC, a nonzero bit in RSV or in a field marked "must be 0" raises
IllegalCommand. -/
def Obligations.NonzeroReservedFieldRaisesIllegalCommand : Prop :=
  ∀ (w : Cmd) (s : State), s.fault = false →
    1 ≤ (fieldOPC w).toNat → (fieldOPC w).toNat ≤ 8 →
    (fieldRSV w ≠ 0 ∨
      (fieldOPC w ≠ 0x05 ∧ fieldOPC w ≠ 0x06 ∧ fieldFC w ≠ 0) ∨
      (fieldOPC w = 0x03 ∧ fieldFB w ≠ 0) ∨
      (fieldOPC w = 0x02 ∧ 256 ≤ (fieldFB w).toNat)) →
    issueWord w s = .next (s.raise .illegalCommand w)

/-- R66: every word either is the word of exactly one command, which it executes, or raises
IllegalCommand. -/
def Obligations.EveryWordIsOneCommandOrIllegal : Prop :=
  ∀ w : Cmd,
    (∃ i, (∀ j, encode j = w ↔ j = i) ∧ decode w = .ok i ∧ ∀ s, issueWord w s = exec i s) ∨
    ((∀ j, encode j ≠ w) ∧
      ∀ s : State, s.fault = false → issueWord w s = .next (s.raise .illegalCommand w))

/-- Sanity: words written out from the fields of R61 (spec/95_test_vectors.md), at least one of each
family, and three that are no command. -/
def Obligations.WordsOfTheSpecDecode : Prop :=
  decode 0x0000000006000001 = .ok (.crc16 0 6) ∧
  decode 0x0000000001FFFF02 = .ok (.crcstep 0xFFFF 0x01) ∧
  decode 0x000000000000FE03 = .ok (.rdu16 254) ∧
  decode 0x0007CF0001000005 = .ok (.pack 0 1 1999) ∧
  decode 0x000064000A000306 = .ok (.unpack 3 10 100) ∧
  decode 0x0000000100000008 = .ok (.appcrc 0 256) ∧
  decode 0x00000000000000FF = .error .reservedOpcode ∧
  decode 0x0000000100000002 = .error .nonzeroReserved ∧
  decode 0x0000010000000002 = .error .nonzeroReserved

/-- R68: the line that writes a command in R68's form assembles to the command's word. -/
def Obligations.WrittenCommandAssemblesToItsWord : Prop :=
  ∀ i : Instr, assembleLine (asmText i) = some [encode i]

/-- R68: an operand that does not fit its field is an assembly error and no word is produced; where
all operands fit, the word decodes to the command written. -/
def Obligations.AssemblyAcceptsExactlyFittingOperands : Prop :=
  (∀ c : AsmCmd, c.wellFormed = false → assemble c = none) ∧
  (∀ c : AsmCmd, c.wellFormed = true →
    ∃ w, assemble c = some w ∧ decode w = .ok (expandAsm c)) ∧
  (∀ off n : Nat, 65536 ≤ n → assemble (.crc16 off n) = none) ∧
  (∀ crc byte : Nat, 256 ≤ byte → assemble (.crcstep crc byte) = none)

/-- R69: the two pseudo-commands expand to CHKCRC 0, len and APPCRC 0, len. -/
def Obligations.PseudoCommandsExpand : Prop :=
  ∀ len : Nat,
    assemble (.chkframe len) = assemble (.chkcrc 0 len) ∧
    assemble (.sealframe len) = assemble (.appcrc 0 len)

/-! ### The step -/

/-- R60, D17 (the step is the model's form of them, log entries 2 and 3): when the host's next move
issues a word that decodes to a command, the step is exec of it with that move taken; when the host
has no move, the state stays. -/
def Obligations.StepRunsTheDecodedCommand : Prop :=
  (∀ (s : State) (w : Cmd) (rest : List HostMove) (i : Instr),
    s.hostMoves = .issue w :: rest → decode w = .ok i →
    step s = exec i { s with hostMoves := rest }) ∧
  (∀ (s : State) (w : Cmd) (i : Instr), decode w = .ok i →
    step (s.withFetchWord 64 w.toNat) = exec i s) ∧
  (∀ s : State, s.hostMoves = [] → step s = .next s)

/-- R127 (with R141): in a faulted state no command has a step, a run from it does not succeed, and
only a reset leads out of it. That a word issued for a reset to abandon stops too, so that only a
reset between commands leads out, is log entries 9 and 18; that no later reset makes the run a
success is log entry 23. -/
def Obligations.FaultedStateTakesNoCommand : Prop :=
  (∀ (s : State) (w : Cmd), s.fault = true → issueWord w s = .fault .commandWhileFaulted) ∧
  (∀ (s : State) (i : Instr), s.fault = true → exec i s = .fault .commandWhileFaulted) ∧
  (∀ (s : State) (w : Cmd), s.fault = true →
    hostMove (.resetDuring w) s = .fault .commandWhileFaulted) ∧
  (∀ s : State, s.fault = true → s.runSucceeds = false) ∧
  (∀ s t : State, s.fault = true → step s = .next t → t.fault = false →
    ∃ rest, s.hostMoves = .reset :: rest)

/-- R150, an assumption of the model (log entry 15; the rule itself says "That is an assumption"): a
command issued while FAULT is clear never hangs: it answers a next state. -/
def Obligations.EveryIssuedCommandCompletes : Prop :=
  ∀ (w : Cmd) (s : State), s.fault = false → ∃ t, issueWord w s = .next t

/-! ### Faults (spec/60_exceptions.md) -/

/-- R44, R120: a command raises OperandFault exactly when its footprint breaks a bound; CRCSTEP and
the frame commands with len <= 2 never do. -/
def Obligations.OperandFaultExactlyWhenFootprintBreaksABound : Prop :=
  (∀ (i : Instr) (s : State), s.fault = false → footprintFits s.cfg (footprint i) = true →
    ∃ t, exec i s = .next t ∧ t.fault = false) ∧
  (∀ (i : Instr) (s : State), s.fault = false → footprintFits s.cfg (footprint i) = false →
    exec i s = .next (s.raise .operandFault (encode i))) ∧
  (∀ (c : Config) (crc : Half) (b : Byte), footprintFits c (footprint (.crcstep crc b)) = true) ∧
  (∀ (c : Config) (off len : Half), len.toNat ≤ 2 →
    footprintFits c (footprint (.chkcrc off len)) = true ∧
    footprintFits c (footprint (.appcrc off len)) = true)

/-- R122: a fault writes FAULT and the fault record and nothing else. -/
def Obligations.FaultWritesOnlyMarkAndRecord : Prop :=
  ∀ (w : Cmd) (s t : State), s.fault = false → issueWord w s = .next t → t.fault = true →
    t = s.raise t.cause t.faultWord

/-- R124: the record holds the cause, 1 for a word that is no command and 2 for one that is, and the
word that faulted; the cause is 0 while FAULT is clear; only reset changes a record once written. -/
def Obligations.FaultRecordIsWrittenOnce : Prop :=
  (∀ (w : Cmd) (s t : State), s.fault = false → issueWord w s = .next t → t.fault = true →
    t.faultWord = w ∧
    ((t.cause.code = 1 ∧ ∀ i, decode w ≠ .ok i) ∨ (t.cause.code = 2 ∧ ∃ i, decode w = .ok i))) ∧
  (∀ s t : State, s.Inv → step s = .next t → t.fault = false → t.cause.code = 0) ∧
  (∀ (s t : State) (m : HostMove) (rest : List HostMove), s.fault = true →
    s.hostMoves = m :: rest → m.resets = false → step s = .next t → sameRecord s t)

/-- R123: the outcomes with OK = 0 that are no faults are exactly three; every other command that
completes without a fault gives OK = 1; none of the three writes B, BA or the fault record, and R is
unchanged where len <= 2 and the payload's CRC otherwise. -/
def Obligations.StatusFailuresAreExactlyThree : Prop :=
  ∀ (i : Instr) (s t : State), s.fault = false → exec i s = .next t → t.fault = false →
    t.okWritten = true ∧
    (t.ok = false ↔
      (∃ off len, i = .chkcrc off len ∧ len.toNat ≤ 2) ∨
      (∃ off len, i = .chkcrc off len ∧ 2 < len.toNat ∧
        s.readTrailer (off.toNat + len.toNat - 2) ≠ s.payloadCrc off.toNat len.toNat) ∨
      (∃ off len, i = .appcrc off len ∧ len.toNat ≤ 2)) ∧
    (t.ok = false → sameB s t ∧ sameBA s t ∧ sameRecord s t ∧
      (sameR s t ∨ ∃ off len, i = .chkcrc off len ∧ 2 < len.toNat ∧
        holdsR t (s.payloadCrc off.toNat len.toNat)))

/-- R125: the checks of one command run in the order given: reserved OPC, nonzero reserved field,
len <= 2 of a frame command, bounds, execution. -/
def Obligations.ChecksRunInOrder : Prop :=
  ∀ (w : Cmd) (s : State), s.fault = false →
    (Opcode.ofByte (fieldOPC w) = none → issueWord w s = .next (s.raise .illegalCommand w)) ∧
    (∀ op, Opcode.ofByte (fieldOPC w) = some op →
      (zeroFieldsOk op w = false → issueWord w s = .next (s.raise .illegalCommand w)) ∧
      (zeroFieldsOk op w = true →
        ((op = .chkcrc ∨ op = .appcrc) → (fieldFB w).toNat ≤ 2 →
          issueWord w s = .next (s.setOk false)) ∧
        (¬ ((op = .chkcrc ∨ op = .appcrc) ∧ (fieldFB w).toNat ≤ 2) →
          (footprintFits s.cfg (footprint (takeOperands op w)) = false →
            issueWord w s = .next (s.raise .operandFault w)) ∧
          (footprintFits s.cfg (footprint (takeOperands op w)) = true →
            issueWord w s = exec (takeOperands op w) s ∧
            ∃ t, issueWord w s = .next t ∧ t.fault = false))))

/-! ### The CRC functions (spec/40_checksum.md) -/

/-- One iteration of R80 over the natural numbers: test bit 0, halve, XOR the polynomial. -/
def crcBitNat (c : Nat) : Nat := if c % 2 = 1 then (c / 2) ^^^ 0xA001 else c / 2

/-- R80: `crc16_step` XORs the byte into the accumulator's low 8 bits and runs 8 iterations. -/
def Obligations.Crc16StepIsEightIterations : Prop :=
  ∀ (c : Half) (b : Byte), (crc16Step c b).toNat = crcBitNat^[8] (c.toNat ^^^ b.toNat)

/-- R81: `crc16` starts from 0xFFFF and takes the bytes in buffer order; no final XOR, no swap. -/
def Obligations.Crc16FoldsTheBytesFromAllOnes : Prop :=
  (∀ bs : List Byte, crc16 bs = bs.foldl crc16Step 0xFFFF) ∧ crc16 [] = 0xFFFF

/-- R83: the CRC of a sequence followed by its own trailer, low byte first, is 0. -/
def Obligations.CrcOfASealedSequenceIsZero : Prop :=
  ∀ m : List Byte, crc16 (m ++ [loByte (crc16 m), hiByte (crc16 m)]) = 0

/-! ### What each command does -/

/-- R82: CRC16, whole: its words, its result and frame, its fault. -/
def Obligations.Crc16ComputesTheCrcOfARange : Prop :=
  (∀ (off len : Half) (s : State), s.fault = false → off.toNat + len.toNat ≤ s.cfg.bufLen →
    ∃ t, exec (.crc16 off len) s = .next t ∧
      holdsR t (crc16 (s.readBytes off.toNat len.toNat)) ∧ holdsOk t true ∧
      sameB s t ∧ sameBA s t ∧ sameRecord s t ∧ sameSetting s t ∧ t.padDraws = s.padDraws) ∧
  (∀ (off len : Half) (s : State), s.fault = false → s.cfg.bufLen < off.toNat + len.toNat →
    exec (.crc16 off len) s = .next (s.raise .operandFault (encode (.crc16 off len)))) ∧
  wordForm 0x01 (fun w => fieldRSV w = 0 ∧ fieldFC w = 0)
    (fun w => .crc16 (fieldFA w) (fieldFB w))

/-- R84: CRCSTEP, whole. -/
def Obligations.CrcstepUpdatesTheAccumulator : Prop :=
  (∀ (crc : Half) (byte : Byte) (s : State), s.fault = false →
    ∃ t, exec (.crcstep crc byte) s = .next t ∧
      holdsR t (crc16Step crc byte) ∧ holdsOk t true ∧
      sameB s t ∧ sameBA s t ∧ sameRecord s t ∧ sameSetting s t ∧ t.padDraws = s.padDraws) ∧
  wordForm 0x02 (fun w => fieldRSV w = 0 ∧ fieldFC w = 0 ∧ (fieldFB w).toNat < 256)
    (fun w => .crcstep (fieldFA w) (BitVec.ofNat 8 (fieldFB w).toNat))

/-- R90 (and R40): RDU16, whole. -/
def Obligations.Rdu16ReadsHighByteFirst : Prop :=
  (∀ (off : Half) (s : State), s.fault = false → off.toNat + 2 ≤ s.cfg.bufLen →
    ∃ t, exec (.rdu16 off) s = .next t ∧
      (t.r.toNat = 256 * (s.readByte off.toNat).toNat + (s.readByte (off.toNat + 1)).toNat ∧
        t.rWritten = true) ∧ holdsOk t true ∧
      sameB s t ∧ sameBA s t ∧ sameRecord s t ∧ sameSetting s t ∧ t.padDraws = s.padDraws) ∧
  (∀ (off : Half) (s : State), s.fault = false → s.cfg.bufLen < off.toNat + 2 →
    exec (.rdu16 off) s = .next (s.raise .operandFault (encode (.rdu16 off)))) ∧
  wordForm 0x03 (fun w => fieldRSV w = 0 ∧ fieldFC w = 0 ∧ fieldFB w = 0)
    (fun w => .rdu16 (fieldFA w))

/-- R92 (and R40): WRU16, whole. -/
def Obligations.Wru16WritesHighByteFirst : Prop :=
  (∀ (off value : Half) (s : State), s.fault = false → off.toNat + 2 ≤ s.cfg.bufLen →
    ∃ t, exec (.wru16 off value) s = .next t ∧
      (t.readByte off.toNat).toNat = value.toNat / 256 ∧
      (t.readByte (off.toNat + 1)).toNat = value.toNat % 256 ∧
      (∀ a, a ≠ off.toNat → a ≠ off.toNat + 1 → t.readByte a = s.readByte a) ∧
      sameR s t ∧ holdsOk t true ∧
      sameBA s t ∧ sameRecord s t ∧ sameSetting s t ∧ t.padDraws = s.padDraws) ∧
  (∀ (off value : Half) (s : State), s.fault = false → s.cfg.bufLen < off.toNat + 2 →
    exec (.wru16 off value) s = .next (s.raise .operandFault (encode (.wru16 off value)))) ∧
  wordForm 0x04 (fun w => fieldRSV w = 0 ∧ fieldFC w = 0)
    (fun w => .wru16 (fieldFA w) (fieldFB w))

/-- R96 (and R95): PACK, whole. Logical bit i lands in bit i mod 8 of byte off + i div 8; a padding
bit of the last byte is the free value `Config.padBits`, of which nothing is known (R97). The pad
counter is the model's own (log entry 5). -/
def Obligations.PackPacksTheBits : Prop :=
  (∀ (off n bbase : Half) (s : State), s.fault = false →
    off.toNat + ceil8 n.toNat ≤ s.cfg.bufLen → bbase.toNat + n.toNat ≤ s.cfg.bitLen →
    ∃ t, exec (.pack off n bbase) s = .next t ∧
      (∀ i, i < n.toNat →
        (t.readByte (off.toNat + i / 8)).getLsbD (i % 8) = s.readBit (bbase.toNat + i)) ∧
      (∀ i, n.toNat ≤ i → i < 8 * ceil8 n.toNat →
        (t.readByte (off.toNat + i / 8)).getLsbD (i % 8) =
          (Config.padBits s.padDraws (encode (.pack off n bbase))).getLsbD (i % 8)) ∧
      (∀ a, (a < off.toNat ∨ off.toNat + ceil8 n.toNat ≤ a) → t.readByte a = s.readByte a) ∧
      t.r.toNat = ceil8 n.toNat ∧ t.rWritten = true ∧ holdsOk t true ∧
      sameBA s t ∧ sameRecord s t ∧ sameSetting s t ∧ t.padDraws = s.padDraws + 1) ∧
  (∀ (off n bbase : Half) (s : State), s.fault = false →
    (s.cfg.bufLen < off.toNat + ceil8 n.toNat ∨ s.cfg.bitLen < bbase.toNat + n.toNat) →
    exec (.pack off n bbase) s = .next (s.raise .operandFault (encode (.pack off n bbase)))) ∧
  wordForm 0x05 (fun w => fieldRSV w = 0) (fun w => .pack (fieldFA w) (fieldFB w) (fieldFC w))

/-- R99 (and R95): UNPACK, whole. -/
def Obligations.UnpackUnpacksTheBits : Prop :=
  (∀ (off n bbase : Half) (s : State), s.fault = false →
    off.toNat + ceil8 n.toNat ≤ s.cfg.bufLen → bbase.toNat + n.toNat ≤ s.cfg.bitLen →
    ∃ t, exec (.unpack off n bbase) s = .next t ∧
      (∀ i, i < n.toNat →
        t.readBit (bbase.toNat + i) = (s.readByte (off.toNat + i / 8)).getLsbD (i % 8)) ∧
      (∀ j, (j < bbase.toNat ∨ bbase.toNat + n.toNat ≤ j) → t.readBit j = s.readBit j) ∧
      t.r.toNat = ceil8 n.toNat ∧ t.rWritten = true ∧ holdsOk t true ∧
      sameB s t ∧ sameRecord s t ∧ sameSetting s t ∧ t.padDraws = s.padDraws) ∧
  (∀ (off n bbase : Half) (s : State), s.fault = false →
    (s.cfg.bufLen < off.toNat + ceil8 n.toNat ∨ s.cfg.bitLen < bbase.toNat + n.toNat) →
    exec (.unpack off n bbase) s =
      .next (s.raise .operandFault (encode (.unpack off n bbase)))) ∧
  wordForm 0x06 (fun w => fieldRSV w = 0) (fun w => .unpack (fieldFA w) (fieldFB w) (fieldFC w))

/-- R110 (and R41): CHKCRC, whole. -/
def Obligations.ChkcrcChecksTheTrailer : Prop :=
  (∀ (off len : Half) (s : State), s.fault = false → 2 < len.toNat →
    off.toNat + len.toNat ≤ s.cfg.bufLen →
    ∃ t, exec (.chkcrc off len) s = .next t ∧
      holdsR t (crc16 (s.readBytes off.toNat (len.toNat - 2))) ∧
      t.okWritten = true ∧
      (t.ok = true ↔
        (s.readByte (off.toNat + len.toNat - 2)).toNat = t.r.toNat % 256 ∧
        (s.readByte (off.toNat + len.toNat - 1)).toNat = t.r.toNat / 256) ∧
      sameB s t ∧ sameBA s t ∧ sameRecord s t ∧ sameSetting s t ∧ t.padDraws = s.padDraws) ∧
  (∀ (off len : Half) (s : State), s.fault = false → len.toNat ≤ 2 →
    ∃ t, exec (.chkcrc off len) s = .next t ∧ holdsOk t false ∧ sameR s t ∧
      sameB s t ∧ sameBA s t ∧ sameRecord s t ∧ sameSetting s t ∧ t.padDraws = s.padDraws) ∧
  (∀ (off len : Half) (s : State), s.fault = false → 2 < len.toNat →
    s.cfg.bufLen < off.toNat + len.toNat →
    exec (.chkcrc off len) s = .next (s.raise .operandFault (encode (.chkcrc off len)))) ∧
  wordForm 0x07 (fun w => fieldRSV w = 0 ∧ fieldFC w = 0)
    (fun w => .chkcrc (fieldFA w) (fieldFB w))

/-- R113 (and R41): APPCRC, whole. -/
def Obligations.AppcrcWritesTheTrailer : Prop :=
  (∀ (off len : Half) (s : State), s.fault = false → 2 < len.toNat →
    off.toNat + len.toNat ≤ s.cfg.bufLen →
    ∃ t, exec (.appcrc off len) s = .next t ∧
      holdsR t (crc16 (s.readBytes off.toNat (len.toNat - 2))) ∧ holdsOk t true ∧
      (t.readByte (off.toNat + len.toNat - 2)).toNat = t.r.toNat % 256 ∧
      (t.readByte (off.toNat + len.toNat - 1)).toNat = t.r.toNat / 256 ∧
      (∀ a, a ≠ off.toNat + len.toNat - 2 → a ≠ off.toNat + len.toNat - 1 →
        t.readByte a = s.readByte a) ∧
      sameBA s t ∧ sameRecord s t ∧ sameSetting s t ∧ t.padDraws = s.padDraws) ∧
  (∀ (off len : Half) (s : State), s.fault = false → len.toNat ≤ 2 →
    ∃ t, exec (.appcrc off len) s = .next t ∧ holdsOk t false ∧ sameR s t ∧
      sameB s t ∧ sameBA s t ∧ sameRecord s t ∧ sameSetting s t ∧ t.padDraws = s.padDraws) ∧
  (∀ (off len : Half) (s : State), s.fault = false → 2 < len.toNat →
    s.cfg.bufLen < off.toNat + len.toNat →
    exec (.appcrc off len) s = .next (s.raise .operandFault (encode (.appcrc off len)))) ∧
  wordForm 0x08 (fun w => fieldRSV w = 0 ∧ fieldFC w = 0)
    (fun w => .appcrc (fieldFA w) (fieldFB w))

/-! ### What every command reads and writes (spec/20_memory.md, spec/10_state.md) -/

/-- R21, R23, R47: a command changes B and BA only inside its write footprint, and the parameters
and the model's own fields other than the pad counter not at all; a command that completes without a
fault leaves the fault record as it was. -/
def Obligations.CommandWritesOnlyItsFootprint : Prop :=
  ∀ (i : Instr) (s t : State), exec i s = .next t →
    (∀ a, spanHolds (footprint i).bWrites a = false → t.readByte a = s.readByte a) ∧
    (∀ j, spanHolds (footprint i).baWrites j = false → t.readBit j = s.readBit j) ∧
    sameSetting s t ∧
    (t.fault = false → sameRecord s t)

/-- R31 (and R27): what a command does depends only on its operands, on the bytes and bits its read
footprint holds and, for PACK, on the pad draw; neither R nor OK nor any other location is an input.
Two states that agree on that give the same outcome. -/
def Obligations.CommandDependsOnlyOnWhatItReads : Prop :=
  ∀ (i : Instr) (s s' t : State), s.fault = false → s'.fault = false → s'.cfg = s.cfg →
    ((∃ off n bbase, i = .pack off n bbase) → s'.padDraws = s.padDraws) →
    (∀ a, spanHolds (footprint i).bReads a = true → s'.readByte a = s.readByte a) →
    (∀ j, spanHolds (footprint i).baReads j = true → s'.readBit j = s.readBit j) →
    exec i s = .next t →
    ∃ t', exec i s' = .next t' ∧ t'.fault = t.fault ∧
      (t.fault = true → t' = s'.raise t.cause t.faultWord) ∧
      (t.fault = false →
        t'.ok = t.ok ∧ t'.okWritten = true ∧
        ((sameR s t ∧ sameR s' t') ∨ (t'.r = t.r ∧ t.rWritten = true ∧ t'.rWritten = true)) ∧
        (∀ a, spanHolds (footprint i).bWrites a = true → t'.readByte a = t.readByte a) ∧
        (∀ j, spanHolds (footprint i).baWrites j = true → t'.readBit j = t.readBit j))

/-- R54: no command's write footprint overlaps its own read footprint. -/
def Obligations.ReadAndWriteFootprintsAreDisjoint : Prop :=
  ∀ (i : Instr) (a : Nat),
    (spanHolds (footprint i).bReads a = true → spanHolds (footprint i).bWrites a = false) ∧
    (spanHolds (footprint i).baReads a = true → spanHolds (footprint i).baWrites a = false)

/-- R96, a corner case: when N is a multiple of 8 the bitmap is fully determined, whatever the pad
draws. -/
def Obligations.PackOfWholeBytesIsDetermined : Prop :=
  ∀ (off n bbase : Half) (s s' : State), s.fault = false → s'.fault = false → s'.cfg = s.cfg →
    n.toNat % 8 = 0 →
    off.toNat + ceil8 n.toNat ≤ s.cfg.bufLen → bbase.toNat + n.toNat ≤ s.cfg.bitLen →
    (∀ i, i < n.toNat → s'.readBit (bbase.toNat + i) = s.readBit (bbase.toNat + i)) →
    ∃ t t', exec (.pack off n bbase) s = .next t ∧ exec (.pack off n bbase) s' = .next t' ∧
      ∀ j, j < ceil8 n.toNat → t'.readByte (off.toNat + j) = t.readByte (off.toNat + j)

/-! ### Laws over several commands -/

/-- R85: the CRCSTEP chain over the bytes of a range ends with what CRC16 computes over it. -/
def Obligations.CrcstepChainEqualsCrc16 : Prop :=
  ∀ (off n : Half) (s : State), s.fault = false → off.toNat + n.toNat ≤ s.cfg.bufLen →
    ∃ c t u, crcstepChain (s.readBytes off.toNat n.toNat) 0xFFFF s = some (c, t) ∧
      exec (.crc16 off n) s = .next u ∧ c = u.r ∧
      c = crc16 (s.readBytes off.toNat n.toNat) ∧ (0 < n.toNat → t.r = c)

/-- R93: WRU16 then RDU16 gives the value back; RDU16 then WRU16 of R leaves B as it was. -/
def Obligations.FieldWriteAndReadAgree : Prop :=
  (∀ (o v : Half) (s : State), s.fault = false → o.toNat + 2 ≤ s.cfg.bufLen →
    ∃ t u, exec (.wru16 o v) s = .next t ∧ exec (.rdu16 o) t = .next u ∧ holdsR u v) ∧
  (∀ (o : Half) (s : State), s.fault = false → o.toNat + 2 ≤ s.cfg.bufLen →
    ∃ t u, exec (.rdu16 o) s = .next t ∧ exec (.wru16 o t.r) t = .next u ∧ sameB s u)

/-- R101: PACK then UNPACK gives the bits back, whatever the pad draws, overlapping or not. -/
def Obligations.PackThenUnpackGivesTheBitsBack : Prop :=
  ∀ (off n bbase bbase2 : Half) (s : State), s.fault = false →
    off.toNat + ceil8 n.toNat ≤ s.cfg.bufLen → bbase.toNat + n.toNat ≤ s.cfg.bitLen →
    bbase2.toNat + n.toNat ≤ s.cfg.bitLen →
    ∃ t u, exec (.pack off n bbase) s = .next t ∧ exec (.unpack off n bbase2) t = .next u ∧
      ∀ i, i < n.toNat → u.readBit (bbase2.toNat + i) = s.readBit (bbase.toNat + i)

/-- R100: UNPACK ignores the padding bits of its last byte. -/
def Obligations.UnpackIgnoresPadding : Prop :=
  ∀ (off n bbase : Half) (s s' : State), s.fault = false → s'.fault = false → s'.cfg = s.cfg →
    off.toNat + ceil8 n.toNat ≤ s.cfg.bufLen → bbase.toNat + n.toNat ≤ s.cfg.bitLen →
    (∀ j, j + 1 < ceil8 n.toNat → s'.readByte (off.toNat + j) = s.readByte (off.toNat + j)) →
    (∀ k, 0 < n.toNat → k ≤ (n.toNat - 1) % 8 →
      (s'.readByte (off.toNat + (ceil8 n.toNat - 1))).getLsbD k =
        (s.readByte (off.toNat + (ceil8 n.toNat - 1))).getLsbD k) →
    ∃ t t', exec (.unpack off n bbase) s = .next t ∧ exec (.unpack off n bbase) s' = .next t' ∧
      t'.r = t.r ∧ t'.ok = t.ok ∧
      ∀ i, i < n.toNat → t'.readBit (bbase.toNat + i) = t.readBit (bbase.toNat + i)

/-- R42 (with R40, R41): RDU16 at the trailer APPCRC wrote returns the CRC byte-swapped. -/
def Obligations.TrailerReadsByteSwapped : Prop :=
  ∀ (off len at_ : Half) (s : State), s.fault = false → 2 < len.toNat →
    off.toNat + len.toNat ≤ s.cfg.bufLen → at_.toNat = off.toNat + len.toNat - 2 →
    ∃ t u, exec (.appcrc off len) s = .next t ∧ exec (.rdu16 at_) t = .next u ∧
      u.r.toNat = 256 * (t.r.toNat % 256) + t.r.toNat / 256

/-- R82, a corner case, by R83: CRC16 over a whole valid frame, trailer included, gives R = 0, and
so it does over a frame APPCRC sealed. -/
def Obligations.Crc16OfAValidFrameIsZero : Prop :=
  (∀ (off len : Half) (s : State), s.fault = false →
    off.toNat + len.toNat ≤ s.cfg.bufLen → s.frameValid off.toNat len.toNat = true →
    ∃ t, exec (.crc16 off len) s = .next t ∧ holdsR t 0) ∧
  (∀ (off len : Half) (s : State), s.fault = false → 2 < len.toNat →
    off.toNat + len.toNat ≤ s.cfg.bufLen →
    ∃ t u, exec (.appcrc off len) s = .next t ∧ exec (.crc16 off len) t = .next u ∧ holdsR u 0)

/-- R114: APPCRC then CHKCRC gives OK = 1 and the same R; for len <= 2 both give OK = 0. -/
def Obligations.SealedFrameChecks : Prop :=
  (∀ (off len : Half) (s : State), s.fault = false → 2 < len.toNat →
    off.toNat + len.toNat ≤ s.cfg.bufLen →
    ∃ t u, exec (.appcrc off len) s = .next t ∧ exec (.chkcrc off len) t = .next u ∧
      holdsOk u true ∧ t.rWritten = true ∧ holdsR u t.r) ∧
  (∀ (off len : Half) (s : State), s.fault = false → len.toNat ≤ 2 →
    ∃ t u, exec (.appcrc off len) s = .next t ∧ exec (.chkcrc off len) t = .next u ∧
      holdsOk t false ∧ holdsOk u false)

/-- R111 (with R70): CHKCRC gives OK = 1 exactly when the frame is valid. -/
def Obligations.ChkcrcAcceptsExactlyValidFrames : Prop :=
  ∀ (off len : Half) (s : State), s.fault = false →
    (len.toNat ≤ 2 ∨ off.toNat + len.toNat ≤ s.cfg.bufLen) →
    ∃ t, exec (.chkcrc off len) s = .next t ∧ t.okWritten = true ∧
      (t.ok = true ↔
        len.toNat > 2 ∧
        (crc16 (s.readBytes off.toNat (len.toNat - 2))).toNat =
          256 * (s.readByte (off.toNat + len.toNat - 1)).toNat +
            (s.readByte (off.toNat + len.toNat - 2)).toNat)

/-- R112: the frame commands have no upper limit on len but the buffer bound, above the 256 bytes of
an ADU too. -/
def Obligations.FrameCommandsHaveNoOtherLengthLimit : Prop :=
  ∀ (off len : Half) (s : State), s.fault = false → 256 < len.toNat →
    off.toNat + len.toNat ≤ s.cfg.bufLen →
    (∃ t, exec (.chkcrc off len) s = .next t ∧ t.fault = false ∧
      holdsR t (crc16 (s.readBytes off.toNat (len.toNat - 2)))) ∧
    (∃ t, exec (.appcrc off len) s = .next t ∧ t.fault = false ∧ holdsOk t true)

/-- R115: flipping any single bit of a valid frame, trailer included, makes CHKCRC give OK = 0. -/
def Obligations.SingleBitErrorIsDetected : Prop :=
  ∀ (off len : Half) (s : State) (a k : Nat), s.fault = false → 2 < len.toNat →
    off.toNat + len.toNat ≤ s.cfg.bufLen → s.frameValid off.toNat len.toNat = true →
    off.toNat ≤ a → a < off.toNat + len.toNat → k < 8 →
    ∃ t, exec (.chkcrc off len) (s.writeByte a (s.readByte a ^^^ BitVec.twoPow 8 k)) = .next t ∧
      holdsOk t false

/-! ### The host and reset (spec/70_reset_and_hazards.md, spec/10_state.md) -/

/-- R140, R141: what a reset leaves, between commands or while one executes: FAULT clear, cause 0
and no word to read, R and OK unwritten so that a read faults and returns no value, every byte and
bit the draw of the new reset, and the block ready for a command. That the parameters and the
host's own fields stay is the model's choice (log entry 18). No command executes in a faulted state
(R127), so that only a reset between commands is applied there. -/
def Obligations.ResetLeavesDrawsAndClearMarks : Prop :=
  ∀ (s : State) (m : HostMove) (rest : List HostMove), s.hostMoves = m :: rest →
    (m = .reset ∨ s.fault = false ∧ ∃ w, m = .resetDuring w) →
    ∃ t, step s = .next t ∧
      t.fault = false ∧ t.cause.code = 0 ∧ t.faultRecord = .record false .noFault none ∧
      t.rWritten = false ∧ hostMove .readR t = .next (t.returns .observationFault) ∧
      t.okWritten = false ∧ hostMove .readOk t = .next (t.returns .observationFault) ∧
      t.epoch = s.epoch + 1 ∧
      (∀ a, t.readByte a = Config.resetByte (s.epoch + 1) a) ∧
      (∀ i, t.readBit i = Config.resetBit (s.epoch + 1) i) ∧
      (∀ w, ∃ u, issueWord w t = .next u) ∧
      t.cfg = s.cfg ∧ t.hostMoves = rest ∧ t.hostRead = s.hostRead

/-- R140, R6: the state after reset itself, with the default parameters. -/
def Obligations.ResetStateIsAsTheSpecSays : Prop :=
  State.reset.cfg.bufLen = 256 ∧ State.reset.cfg.bitLen = 2000 ∧
  State.reset.fault = false ∧ State.reset.cause.code = 0 ∧
  State.reset.rWritten = false ∧ State.reset.okWritten = false ∧
  (∀ a, State.reset.readByte a = Config.resetByte 0 a) ∧
  (∀ i, State.reset.readBit i = Config.resetBit 0 i)

/-- R25, R26: a host read of R or OK faults and returns no value while its written mark is clear,
whatever the bits are. That the read answers a next state which records this and leaves the rest as
it was, so that the block goes on, is log entry 10. -/
def Obligations.UnwrittenResultCannotBeRead : Prop :=
  (∀ s : State, s.rWritten = false →
    hostMove .readR s = .next (s.returns .observationFault)) ∧
  (∀ s : State, s.okWritten = false →
    hostMove .readOk s = .next (s.returns .observationFault))

/-- R146, D13: what the host may do between commands, and that an access outside B or BA is refused.
That a read's value stands in `hostRead` is the model's form (log entry 10). -/
def Obligations.HostAccessesActAsTheTableSays : Prop :=
  ∀ s : State,
    (∀ a v, a < s.cfg.bufLen → ∃ t, hostMove (.writeByte a v) s = .next t ∧ t.readByte a = v ∧
      (∀ x, x ≠ a → t.readByte x = s.readByte x) ∧ sameBA s t ∧ sameR s t ∧ sameOk s t ∧
      sameRecord s t ∧ sameSetting s t ∧ t.padDraws = s.padDraws) ∧
    (∀ a, a < s.cfg.bufLen →
      hostMove (.readByte a) s = .next (s.returns (.byte (s.readByte a)))) ∧
    (∀ i v, i < s.cfg.bitLen → ∃ t, hostMove (.writeBit i v) s = .next t ∧ t.readBit i = v ∧
      (∀ x, x ≠ i → t.readBit x = s.readBit x) ∧ sameB s t ∧ sameR s t ∧ sameOk s t ∧
      sameRecord s t ∧ sameSetting s t ∧ t.padDraws = s.padDraws) ∧
    (∀ i, i < s.cfg.bitLen →
      hostMove (.readBit i) s = .next (s.returns (.bit (s.readBit i)))) ∧
    (s.rWritten = true → hostMove .readR s = .next (s.returns (.result s.r))) ∧
    (s.okWritten = true → hostMove .readOk s = .next (s.returns (.status s.ok))) ∧
    (∃ word, hostMove .readFault s = .next (s.returns (.record s.fault s.cause word)) ∧
      (s.cause ≠ .noFault → word = some s.faultWord)) ∧
    (∀ a v, s.cfg.bufLen ≤ a → hostMove (.writeByte a v) s = .refused (.hostAccessOutsideB a) ∧
      hostMove (.readByte a) s = .refused (.hostAccessOutsideB a)) ∧
    (∀ i v, s.cfg.bitLen ≤ i → hostMove (.writeBit i v) s = .refused (.hostAccessOutsideBA i) ∧
      hostMove (.readBit i) s = .refused (.hostAccessOutsideBA i))

/-- R24, R26: only reset clears a written mark. -/
def Obligations.WrittenMarksStayUntilReset : Prop :=
  ∀ (s t : State) (m : HostMove) (rest : List HostMove), s.hostMoves = m :: rest →
    m.resets = false → step s = .next t →
    (s.rWritten = true → t.rWritten = true) ∧ (s.okWritten = true → t.okWritten = true)

/-! ### Invariants and runs -/

/-- The state after reset meets the invariant. -/
def Obligations.ResetMeetsTheInvariant : Prop := State.reset.Inv

/-- R6, R20, R22, R24, R26, R124: every step keeps the invariant: legal parameters, B and BA in
canonical form and inside their ends, the cause 0 exactly while FAULT is clear, R's mark never set
without OK's. -/
def Obligations.StepKeepsTheInvariant : Prop :=
  ∀ s t : State, s.Inv → step s = .next t → t.Inv

/-- R6: no step changes the parameters. -/
def Obligations.StepKeepsTheParameters : Prop :=
  ∀ s t : State, step s = .next t → t.cfg = s.cfg

/-- R148 (that the end is the first state after which no command is issued is log entry 24): the
end of a run is the state its last command left, whatever the host does after it, and the run
succeeds only if FAULT is clear there. -/
def Obligations.RunEndsAsTheLastCommandLeftIt : Prop :=
  (∀ s t : State, s.endOfRun = .next t ↔
    t.ended ∧ ∃ k, Host.Core.run Sys2Proof.core k s = .next t ∧
      ∀ j, j < k → ∃ u : State, Host.Core.run Sys2Proof.core j s = .next u ∧ ¬ u.ended) ∧
  (∀ (s : State) (w : Cmd) (rest : List HostMove), s.hostMoves = .issue w :: rest →
    noCommand rest = true → s.endOfRun = issueWord w { s with hostMoves := rest }) ∧
  (∀ s : State, s.runSucceeds = true → ∃ t, s.endOfRun = .next t ∧ t.fault = false)

/-- R127, R148 (log entry 23): a run succeeds exactly when it comes to an end and no state of it up to
there is faulted; a reset after a fault does not make it a success. -/
def Obligations.RunSucceedsExactlyWhenNeverFaulted : Prop :=
  ∀ s : State, s.runSucceeds = true ↔
    ∃ (k : Nat) (t : State), Host.Core.run Sys2Proof.core k s = .next t ∧ t.ended ∧
      ∀ j, j ≤ k → ∃ u : State, Host.Core.run Sys2Proof.core j s = .next u ∧ u.fault = false

/-- R127: a run without a reset that is left with FAULT clear had FAULT clear after every step. -/
def Obligations.SuccessfulRunNeverFaulted : Prop :=
  ∀ (k : Nat) (s t : State), (∀ m ∈ s.hostMoves, m.resets = false) →
    Host.Core.run Sys2Proof.core k s = .next t → t.fault = false →
    ∀ j, j ≤ k → ∃ u : State, Host.Core.run Sys2Proof.core j s = .next u ∧ u.fault = false
end

