-- ==== Sys2Proof/Laws/Assembly.lean ====
section
/-! SUPPORT. The assembler on text that R68 writes: operands in hex read back, operands split at a
comma and a space, a line splits into its mnemonic and its operands (spec/30_encoding.md R68). -/

namespace Sys2Proof.Machine

/-- A character that stands for itself in a line: no space, comma or semicolon. -/
abbrev plainChar (c : Char) : Prop := c ≠ ' ' ∧ c ≠ ',' ∧ c ≠ ';'

theorem plainChar_hexChar (n : Nat) (h : n < 16) : plainChar (hexChar n) := by
  interval_cases n <;> decide

theorem hexDigit_hexChar (n : Nat) (h : n < 16) : hexDigit (hexChar n) = some n := by
  interval_cases n <;> decide

theorem plainChar_mnemonicText : ∀ op : Opcode, ∀ c ∈ mnemonicText op, plainChar c := by
  intro op
  cases op <;> simp only [mnemonicText, List.forall_mem_cons] <;>
    simp [plainChar]

/-! ### Operands -/

/-- What the text of an operand has: plain characters, at least one. -/
def plainText (cs : List Char) : Prop := cs ≠ [] ∧ ∀ c ∈ cs, plainChar c

theorem plainText_hexHalf (v : Half) : plainText (hexHalf v) := by
  have := v.isLt
  refine ⟨by simp [hexHalf], ?_⟩
  simp only [hexHalf, List.forall_mem_cons]
  exact ⟨by decide, by decide, plainChar_hexChar _ (by omega), plainChar_hexChar _ (by omega),
    plainChar_hexChar _ (by omega), plainChar_hexChar _ (by omega), by simp⟩

theorem plainText_hexByte (v : Byte) : plainText (hexByte v) := by
  have := v.isLt
  refine ⟨by simp [hexByte], ?_⟩
  simp only [hexByte, List.forall_mem_cons]
  exact ⟨by decide, by decide, plainChar_hexChar _ (by omega), plainChar_hexChar _ (by omega),
    by simp⟩

/-- A 16-bit operand reads back. -/
theorem parseOperand_hexHalf (v : Half) : parseOperand (hexHalf v) = some v.toNat := by
  have := v.isLt
  simp only [parseOperand, hexHalf, digitsFrom,
    hexDigit_hexChar (v.toNat / 4096) (by omega), hexDigit_hexChar (v.toNat / 256 % 16) (by omega),
    hexDigit_hexChar (v.toNat / 16 % 16) (by omega), hexDigit_hexChar (v.toNat % 16) (by omega)]
  congr 1; omega

/-- An 8-bit operand reads back. -/
theorem parseOperand_hexByte (v : Byte) : parseOperand (hexByte v) = some v.toNat := by
  have := v.isLt
  simp only [parseOperand, hexByte, digitsFrom,
    hexDigit_hexChar (v.toNat / 16) (by omega), hexDigit_hexChar (v.toNat % 16) (by omega)]
  congr 1; omega

theorem plainText_operandTexts (i : Instr) : ∀ q ∈ operandTexts i, plainText q := by
  cases i <;> simp [operandTexts, plainText_hexHalf, plainText_hexByte]

/-! ### Splitting -/

theorem splitOperands_plain (cs : List Char) (h : ∀ c ∈ cs, plainChar c) :
    splitOperands cs = [cs] := by
  induction cs with
  | nil => rfl
  | cons c cs ih =>
    have hc := h c (by simp)
    rw [splitOperands, ih fun x hx => h x (by simp [hx])]
    exact fun _ hx _ => hc.2.1 hx

theorem splitOperands_append (cs r : List Char) (h : ∀ c ∈ cs, plainChar c) :
    splitOperands (cs ++ ',' :: ' ' :: r) = cs :: splitOperands r := by
  induction cs with
  | nil => simp [splitOperands]
  | cons c cs ih =>
    have hc := h c (by simp)
    rw [List.cons_append, splitOperands, ih fun x hx => h x (by simp [hx])]
    exact fun _ hx _ => hc.2.1 hx

/-- Splitting undoes joining. -/
theorem splitOperands_joinOperands (p : List Char) (ps : List (List Char))
    (h : ∀ q ∈ p :: ps, plainText q) : splitOperands (joinOperands (p :: ps)) = p :: ps := by
  induction ps generalizing p with
  | nil => exact splitOperands_plain p (h p (by simp)).2
  | cons q qs ih =>
    rw [joinOperands, splitOperands_append _ _ (h p (by simp)).2,
      ih q fun x hx => h x (by simp [List.mem_cons.1 hx])]
    simp

/-- Joined operands hold no semicolon, and their last character is no space. -/
theorem joinOperands_ends (p : List Char) (ps : List (List Char))
    (h : ∀ q ∈ p :: ps, plainText q) :
    (∀ c ∈ joinOperands (p :: ps), c ≠ ';') ∧
      ∃ xs c, joinOperands (p :: ps) = xs ++ [c] ∧ c ≠ ' ' := by
  induction ps generalizing p with
  | nil =>
    have hp := h p (by simp)
    refine ⟨fun c hc => (hp.2 c hc).2.2, p.dropLast, p.getLast hp.1, ?_, ?_⟩
    · exact (List.dropLast_append_getLast hp.1).symm
    · exact (hp.2 _ (List.getLast_mem hp.1)).1
  | cons q qs ih =>
    have hp := h p (by simp)
    obtain ⟨h1, xs, c, h2, h3⟩ := ih q fun x hx => h x (by simp [List.mem_cons.1 hx])
    refine ⟨?_, p ++ ',' :: ' ' :: xs, c, ?_, h3⟩
    · intro x hx
      simp only [joinOperands, List.mem_append, List.mem_cons] at hx
      rcases hx with hx | rfl | rfl | hx
      · exact (hp.2 x hx).2.2
      · decide
      · decide
      · exact h1 x hx
    · rw [joinOperands, h2]
      · simp
      · simp

/-! ### Lines -/

/-- A line of a mnemonic, one space and operands is the command they name. -/
theorem assembleLine_written (name ops : List Char) (ns : List Nat) (c : AsmCmd) (w : Cmd)
    (hname : plainText name) (hsemi : ∀ x ∈ ops, x ≠ ';')
    (hlast : ∃ xs x, ops = xs ++ [x] ∧ x ≠ ' ')
    (hops : parseOperands (splitOperands ops) = some ns)
    (hcmd : namedCommand name ns = some c) (hw : assemble c = some w) :
    assembleLine (name ++ ' ' :: ops) = some [w] := by
  have htake : (name ++ ' ' :: ops).takeWhile (· != ';') = name ++ ' ' :: ops := by
    rw [List.takeWhile_eq_self_iff]
    intro x hx
    simp only [List.mem_append, List.mem_cons] at hx
    rcases hx with hx | rfl | hx
    · simpa using (hname.2 x hx).2.2
    · decide
    · simpa using hsemi x hx
  have hstrip : stripComment (name ++ ' ' :: ops) = name ++ ' ' :: ops := by
    obtain ⟨xs, x, rfl, hx⟩ := hlast
    unfold stripComment
    rw [htake, show name ++ ' ' :: (xs ++ [x]) = (name ++ ' ' :: xs) ++ [x] by simp,
      List.reverse_append]
    simp [hx]
  have hplain : ∀ x ∈ name, (x != ' ') = true := fun x hx => by simpa using (hname.2 x hx).1
  have hparse : parseCommand (name ++ ' ' :: ops) = some c := by
    unfold parseCommand
    rw [List.dropWhile_append_of_pos hplain, List.takeWhile_append_of_pos hplain]
    simpa [hops] using hcmd
  unfold assembleLine
  rw [hstrip]
  split
  · simp_all
  · rw [hparse]; simp [hw]

end Sys2Proof.Machine
end

