-- ==== Sys2Proof/Laws/State.lean ====
section
/-! SUPPORT. One lemma per field of the state and per update, and the reads of B and BA after an
update that does not touch them. -/

namespace Sys2Proof.Machine.State

/-! ### writeByte -/

@[simp] theorem writeByte_cfg (s : State) (a : Nat) (v : Byte) : (s.writeByte a v).cfg = s.cfg := rfl
@[simp] theorem writeByte_b (s : State) (a : Nat) (v : Byte) : (s.writeByte a v).b = storeCell a v s.b := rfl
@[simp] theorem writeByte_ba (s : State) (a : Nat) (v : Byte) : (s.writeByte a v).ba = s.ba := rfl
@[simp] theorem writeByte_r (s : State) (a : Nat) (v : Byte) : (s.writeByte a v).r = s.r := rfl
@[simp] theorem writeByte_rWritten (s : State) (a : Nat) (v : Byte) : (s.writeByte a v).rWritten = s.rWritten := rfl
@[simp] theorem writeByte_ok (s : State) (a : Nat) (v : Byte) : (s.writeByte a v).ok = s.ok := rfl
@[simp] theorem writeByte_okWritten (s : State) (a : Nat) (v : Byte) : (s.writeByte a v).okWritten = s.okWritten := rfl
@[simp] theorem writeByte_fault (s : State) (a : Nat) (v : Byte) : (s.writeByte a v).fault = s.fault := rfl
@[simp] theorem writeByte_cause (s : State) (a : Nat) (v : Byte) : (s.writeByte a v).cause = s.cause := rfl
@[simp] theorem writeByte_faultWord (s : State) (a : Nat) (v : Byte) : (s.writeByte a v).faultWord = s.faultWord := rfl
@[simp] theorem writeByte_epoch (s : State) (a : Nat) (v : Byte) : (s.writeByte a v).epoch = s.epoch := rfl
@[simp] theorem writeByte_padDraws (s : State) (a : Nat) (v : Byte) : (s.writeByte a v).padDraws = s.padDraws := rfl
@[simp] theorem writeByte_hostMoves (s : State) (a : Nat) (v : Byte) : (s.writeByte a v).hostMoves = s.hostMoves := rfl
@[simp] theorem writeByte_hostRead (s : State) (a : Nat) (v : Byte) : (s.writeByte a v).hostRead = s.hostRead := rfl

/-! ### writeBit -/

@[simp] theorem writeBit_cfg (s : State) (i : Nat) (v : Bool) : (s.writeBit i v).cfg = s.cfg := rfl
@[simp] theorem writeBit_b (s : State) (i : Nat) (v : Bool) : (s.writeBit i v).b = s.b := rfl
@[simp] theorem writeBit_ba (s : State) (i : Nat) (v : Bool) : (s.writeBit i v).ba = storeCell i v s.ba := rfl
@[simp] theorem writeBit_r (s : State) (i : Nat) (v : Bool) : (s.writeBit i v).r = s.r := rfl
@[simp] theorem writeBit_rWritten (s : State) (i : Nat) (v : Bool) : (s.writeBit i v).rWritten = s.rWritten := rfl
@[simp] theorem writeBit_ok (s : State) (i : Nat) (v : Bool) : (s.writeBit i v).ok = s.ok := rfl
@[simp] theorem writeBit_okWritten (s : State) (i : Nat) (v : Bool) : (s.writeBit i v).okWritten = s.okWritten := rfl
@[simp] theorem writeBit_fault (s : State) (i : Nat) (v : Bool) : (s.writeBit i v).fault = s.fault := rfl
@[simp] theorem writeBit_cause (s : State) (i : Nat) (v : Bool) : (s.writeBit i v).cause = s.cause := rfl
@[simp] theorem writeBit_faultWord (s : State) (i : Nat) (v : Bool) : (s.writeBit i v).faultWord = s.faultWord := rfl
@[simp] theorem writeBit_epoch (s : State) (i : Nat) (v : Bool) : (s.writeBit i v).epoch = s.epoch := rfl
@[simp] theorem writeBit_padDraws (s : State) (i : Nat) (v : Bool) : (s.writeBit i v).padDraws = s.padDraws := rfl
@[simp] theorem writeBit_hostMoves (s : State) (i : Nat) (v : Bool) : (s.writeBit i v).hostMoves = s.hostMoves := rfl
@[simp] theorem writeBit_hostRead (s : State) (i : Nat) (v : Bool) : (s.writeBit i v).hostRead = s.hostRead := rfl

/-! ### setR -/

@[simp] theorem setR_cfg (s : State) (v : Half) : (s.setR v).cfg = s.cfg := rfl
@[simp] theorem setR_b (s : State) (v : Half) : (s.setR v).b = s.b := rfl
@[simp] theorem setR_ba (s : State) (v : Half) : (s.setR v).ba = s.ba := rfl
@[simp] theorem setR_r (s : State) (v : Half) : (s.setR v).r = v := rfl
@[simp] theorem setR_rWritten (s : State) (v : Half) : (s.setR v).rWritten = true := rfl
@[simp] theorem setR_ok (s : State) (v : Half) : (s.setR v).ok = s.ok := rfl
@[simp] theorem setR_okWritten (s : State) (v : Half) : (s.setR v).okWritten = s.okWritten := rfl
@[simp] theorem setR_fault (s : State) (v : Half) : (s.setR v).fault = s.fault := rfl
@[simp] theorem setR_cause (s : State) (v : Half) : (s.setR v).cause = s.cause := rfl
@[simp] theorem setR_faultWord (s : State) (v : Half) : (s.setR v).faultWord = s.faultWord := rfl
@[simp] theorem setR_epoch (s : State) (v : Half) : (s.setR v).epoch = s.epoch := rfl
@[simp] theorem setR_padDraws (s : State) (v : Half) : (s.setR v).padDraws = s.padDraws := rfl
@[simp] theorem setR_hostMoves (s : State) (v : Half) : (s.setR v).hostMoves = s.hostMoves := rfl
@[simp] theorem setR_hostRead (s : State) (v : Half) : (s.setR v).hostRead = s.hostRead := rfl

/-! ### setOk -/

@[simp] theorem setOk_cfg (s : State) (v : Bool) : (s.setOk v).cfg = s.cfg := rfl
@[simp] theorem setOk_b (s : State) (v : Bool) : (s.setOk v).b = s.b := rfl
@[simp] theorem setOk_ba (s : State) (v : Bool) : (s.setOk v).ba = s.ba := rfl
@[simp] theorem setOk_r (s : State) (v : Bool) : (s.setOk v).r = s.r := rfl
@[simp] theorem setOk_rWritten (s : State) (v : Bool) : (s.setOk v).rWritten = s.rWritten := rfl
@[simp] theorem setOk_ok (s : State) (v : Bool) : (s.setOk v).ok = v := rfl
@[simp] theorem setOk_okWritten (s : State) (v : Bool) : (s.setOk v).okWritten = true := rfl
@[simp] theorem setOk_fault (s : State) (v : Bool) : (s.setOk v).fault = s.fault := rfl
@[simp] theorem setOk_cause (s : State) (v : Bool) : (s.setOk v).cause = s.cause := rfl
@[simp] theorem setOk_faultWord (s : State) (v : Bool) : (s.setOk v).faultWord = s.faultWord := rfl
@[simp] theorem setOk_epoch (s : State) (v : Bool) : (s.setOk v).epoch = s.epoch := rfl
@[simp] theorem setOk_padDraws (s : State) (v : Bool) : (s.setOk v).padDraws = s.padDraws := rfl
@[simp] theorem setOk_hostMoves (s : State) (v : Bool) : (s.setOk v).hostMoves = s.hostMoves := rfl
@[simp] theorem setOk_hostRead (s : State) (v : Bool) : (s.setOk v).hostRead = s.hostRead := rfl

/-! ### tickPad -/

@[simp] theorem tickPad_cfg (s : State) : (s.tickPad).cfg = s.cfg := rfl
@[simp] theorem tickPad_b (s : State) : (s.tickPad).b = s.b := rfl
@[simp] theorem tickPad_ba (s : State) : (s.tickPad).ba = s.ba := rfl
@[simp] theorem tickPad_r (s : State) : (s.tickPad).r = s.r := rfl
@[simp] theorem tickPad_rWritten (s : State) : (s.tickPad).rWritten = s.rWritten := rfl
@[simp] theorem tickPad_ok (s : State) : (s.tickPad).ok = s.ok := rfl
@[simp] theorem tickPad_okWritten (s : State) : (s.tickPad).okWritten = s.okWritten := rfl
@[simp] theorem tickPad_fault (s : State) : (s.tickPad).fault = s.fault := rfl
@[simp] theorem tickPad_cause (s : State) : (s.tickPad).cause = s.cause := rfl
@[simp] theorem tickPad_faultWord (s : State) : (s.tickPad).faultWord = s.faultWord := rfl
@[simp] theorem tickPad_epoch (s : State) : (s.tickPad).epoch = s.epoch := rfl
@[simp] theorem tickPad_padDraws (s : State) : (s.tickPad).padDraws = s.padDraws + 1 := rfl
@[simp] theorem tickPad_hostMoves (s : State) : (s.tickPad).hostMoves = s.hostMoves := rfl
@[simp] theorem tickPad_hostRead (s : State) : (s.tickPad).hostRead = s.hostRead := rfl

/-! ### raise -/

@[simp] theorem raise_cfg (s : State) (c : Cause) (w : Cmd) : (s.raise c w).cfg = s.cfg := rfl
@[simp] theorem raise_b (s : State) (c : Cause) (w : Cmd) : (s.raise c w).b = s.b := rfl
@[simp] theorem raise_ba (s : State) (c : Cause) (w : Cmd) : (s.raise c w).ba = s.ba := rfl
@[simp] theorem raise_r (s : State) (c : Cause) (w : Cmd) : (s.raise c w).r = s.r := rfl
@[simp] theorem raise_rWritten (s : State) (c : Cause) (w : Cmd) : (s.raise c w).rWritten = s.rWritten := rfl
@[simp] theorem raise_ok (s : State) (c : Cause) (w : Cmd) : (s.raise c w).ok = s.ok := rfl
@[simp] theorem raise_okWritten (s : State) (c : Cause) (w : Cmd) : (s.raise c w).okWritten = s.okWritten := rfl
@[simp] theorem raise_fault (s : State) (c : Cause) (w : Cmd) : (s.raise c w).fault = true := rfl
@[simp] theorem raise_cause (s : State) (c : Cause) (w : Cmd) : (s.raise c w).cause = c := rfl
@[simp] theorem raise_faultWord (s : State) (c : Cause) (w : Cmd) : (s.raise c w).faultWord = w := rfl
@[simp] theorem raise_epoch (s : State) (c : Cause) (w : Cmd) : (s.raise c w).epoch = s.epoch := rfl
@[simp] theorem raise_padDraws (s : State) (c : Cause) (w : Cmd) : (s.raise c w).padDraws = s.padDraws := rfl
@[simp] theorem raise_hostMoves (s : State) (c : Cause) (w : Cmd) : (s.raise c w).hostMoves = s.hostMoves := rfl
@[simp] theorem raise_hostRead (s : State) (c : Cause) (w : Cmd) : (s.raise c w).hostRead = s.hostRead := rfl

/-! ### returns -/

@[simp] theorem returns_cfg (s : State) (d : HostData) : (s.returns d).cfg = s.cfg := rfl
@[simp] theorem returns_b (s : State) (d : HostData) : (s.returns d).b = s.b := rfl
@[simp] theorem returns_ba (s : State) (d : HostData) : (s.returns d).ba = s.ba := rfl
@[simp] theorem returns_r (s : State) (d : HostData) : (s.returns d).r = s.r := rfl
@[simp] theorem returns_rWritten (s : State) (d : HostData) : (s.returns d).rWritten = s.rWritten := rfl
@[simp] theorem returns_ok (s : State) (d : HostData) : (s.returns d).ok = s.ok := rfl
@[simp] theorem returns_okWritten (s : State) (d : HostData) : (s.returns d).okWritten = s.okWritten := rfl
@[simp] theorem returns_fault (s : State) (d : HostData) : (s.returns d).fault = s.fault := rfl
@[simp] theorem returns_cause (s : State) (d : HostData) : (s.returns d).cause = s.cause := rfl
@[simp] theorem returns_faultWord (s : State) (d : HostData) : (s.returns d).faultWord = s.faultWord := rfl
@[simp] theorem returns_epoch (s : State) (d : HostData) : (s.returns d).epoch = s.epoch := rfl
@[simp] theorem returns_padDraws (s : State) (d : HostData) : (s.returns d).padDraws = s.padDraws := rfl
@[simp] theorem returns_hostMoves (s : State) (d : HostData) : (s.returns d).hostMoves = s.hostMoves := rfl
@[simp] theorem returns_hostRead (s : State) (d : HostData) : (s.returns d).hostRead = some d := rfl

/-! ### applyReset -/

@[simp] theorem applyReset_cfg (s : State) : (s.applyReset).cfg = s.cfg := rfl
@[simp] theorem applyReset_b (s : State) : (s.applyReset).b = [] := rfl
@[simp] theorem applyReset_ba (s : State) : (s.applyReset).ba = [] := rfl
@[simp] theorem applyReset_r (s : State) : (s.applyReset).r = 0 := rfl
@[simp] theorem applyReset_rWritten (s : State) : (s.applyReset).rWritten = false := rfl
@[simp] theorem applyReset_ok (s : State) : (s.applyReset).ok = false := rfl
@[simp] theorem applyReset_okWritten (s : State) : (s.applyReset).okWritten = false := rfl
@[simp] theorem applyReset_fault (s : State) : (s.applyReset).fault = false := rfl
@[simp] theorem applyReset_cause (s : State) : (s.applyReset).cause = .noFault := rfl
@[simp] theorem applyReset_faultWord (s : State) : (s.applyReset).faultWord = 0 := rfl
@[simp] theorem applyReset_epoch (s : State) : (s.applyReset).epoch = s.epoch + 1 := rfl
@[simp] theorem applyReset_padDraws (s : State) : (s.applyReset).padDraws = s.padDraws := rfl
@[simp] theorem applyReset_hostMoves (s : State) : (s.applyReset).hostMoves = s.hostMoves := rfl
@[simp] theorem applyReset_hostRead (s : State) : (s.applyReset).hostRead = s.hostRead := rfl

/-! ### Reads after updates of other fields -/

@[simp] theorem readBit_writeByte (s : State) (a : Nat) (v : Byte) (x : Nat) :
    (s.writeByte a v).readBit x = s.readBit x := rfl
@[simp] theorem readByte_writeBit (s : State) (i : Nat) (v : Bool) (x : Nat) :
    (s.writeBit i v).readByte x = s.readByte x := rfl
@[simp] theorem readByte_setR (s : State) (v : Half) (x : Nat) :
    (s.setR v).readByte x = s.readByte x := rfl
@[simp] theorem readBit_setR (s : State) (v : Half) (x : Nat) :
    (s.setR v).readBit x = s.readBit x := rfl
@[simp] theorem readByte_setOk (s : State) (v : Bool) (x : Nat) :
    (s.setOk v).readByte x = s.readByte x := rfl
@[simp] theorem readBit_setOk (s : State) (v : Bool) (x : Nat) :
    (s.setOk v).readBit x = s.readBit x := rfl
@[simp] theorem readByte_tickPad (s : State) (x : Nat) :
    (s.tickPad).readByte x = s.readByte x := rfl
@[simp] theorem readBit_tickPad (s : State) (x : Nat) :
    (s.tickPad).readBit x = s.readBit x := rfl
@[simp] theorem readByte_raise (s : State) (c : Cause) (w : Cmd) (x : Nat) :
    (s.raise c w).readByte x = s.readByte x := rfl
@[simp] theorem readBit_raise (s : State) (c : Cause) (w : Cmd) (x : Nat) :
    (s.raise c w).readBit x = s.readBit x := rfl
@[simp] theorem readByte_returns (s : State) (d : HostData) (x : Nat) :
    (s.returns d).readByte x = s.readByte x := rfl
@[simp] theorem readBit_returns (s : State) (d : HostData) (x : Nat) :
    (s.returns d).readBit x = s.readBit x := rfl

/-- After a reset every byte is the draw of the new reset. -/
@[simp] theorem readByte_applyReset (s : State) (a : Nat) :
    s.applyReset.readByte a = Config.resetByte (s.epoch + 1) a := rfl

/-- After a reset every bit is the draw of the new reset. -/
@[simp] theorem readBit_applyReset (s : State) (i : Nat) :
    s.applyReset.readBit i = Config.resetBit (s.epoch + 1) i := rfl

end Sys2Proof.Machine.State
end

