-- ==== Sys2Proof/Laws/Memory.lean ====
section
/-! SUPPORT. B and BA as memories: a read after a write, the frame of a write, and that every
operation keeps the canonical form and the bounds. -/

namespace Sys2Proof.Machine

/-! ### Cells -/

section Cells
variable {α : Type}

theorem lookupCell_storeCell_same (a : Nat) (v : α) (m : List (Nat × α)) :
    lookupCell a (storeCell a v m) = some v := by
  induction m with
  | nil => simp [storeCell, lookupCell]
  | cons c rest ih =>
    obtain ⟨k, w⟩ := c
    simp only [storeCell]
    split_ifs with h1 h2 <;> simp [lookupCell, ih]
    omega

theorem lookupCell_storeCell_other (a x : Nat) (v : α) (m : List (Nat × α)) (h : x ≠ a) :
    lookupCell x (storeCell a v m) = lookupCell x m := by
  induction m with
  | nil => simp [storeCell, lookupCell, h.symm]
  | cons c rest ih =>
    obtain ⟨k, w⟩ := c
    simp only [storeCell]
    split_ifs with h1 h2
    · simp [lookupCell, h.symm]
    · subst h2; simp [lookupCell, h.symm]
    · simp [lookupCell, ih]

/-- Every key of a stored list is the stored key or an old one. -/
theorem all_storeCell {p : Nat × α → Bool} (a : Nat) (v : α) (m : List (Nat × α))
    (hm : m.all p = true) (ha : p (a, v) = true) : (storeCell a v m).all p = true := by
  induction m with
  | nil => simp [storeCell, ha]
  | cons c rest ih =>
    obtain ⟨k, w⟩ := c
    simp only [List.all_cons, Bool.and_eq_true] at hm
    simp only [storeCell]
    split_ifs with h1 h2
    · simp [ha, hm.1, hm.2]
    · simp [ha, hm.2]
    · simp [hm.1, ih hm.2]

/-- A store keeps the canonical form. -/
theorem risingCells_storeCell (a : Nat) (v : α) (m : List (Nat × α)) (h : risingCells m = true) :
    risingCells (storeCell a v m) = true := by
  induction m with
  | nil => simp [storeCell, risingCells]
  | cons c rest ih =>
    obtain ⟨k, w⟩ := c
    simp only [risingCells, Bool.and_eq_true] at h
    simp only [storeCell]
    split_ifs with h1 h2
    · have hk : rest.all (fun c => decide (a < c.1)) = true := by
        simp only [List.all_eq_true, decide_eq_true_eq] at h ⊢
        exact fun x hx => lt_trans h1 (h.1 x hx)
      simp [risingCells, h1, hk, h.1, h.2]
    · subst h2; simp [risingCells, h.1, h.2]
    · have hk : k < a := by omega
      simp only [risingCells, Bool.and_eq_true]
      exact ⟨all_storeCell a v rest h.1 (by simpa using hk), ih h.2⟩

/-- A store below a limit keeps the cells below it. -/
theorem cellsBelow_storeCell (limit a : Nat) (v : α) (m : List (Nat × α))
    (h : cellsBelow limit m = true) (ha : a < limit) : cellsBelow limit (storeCell a v m) = true :=
  all_storeCell a v m h (by simpa using ha)

/-- Two canonical lists that hold the same values are the same list. -/
theorem risingCells_ext {m n : List (Nat × α)} (hm : risingCells m = true)
    (hn : risingCells n = true) (h : ∀ a, lookupCell a m = lookupCell a n) : m = n := by
  have missing : ∀ (a : Nat) (l : List (Nat × α)), l.all (fun c => decide (a < c.1)) = true →
      lookupCell a l = none := by
    intro a l hl
    induction l with
    | nil => rfl
    | cons c rest ih =>
      simp only [List.all_cons, Bool.and_eq_true, decide_eq_true_eq] at hl
      simp [lookupCell, ih hl.2, (Nat.ne_of_gt hl.1)]
  induction m generalizing n with
  | nil =>
    cases n with
    | nil => rfl
    | cons c rest => have := h c.1; simp [lookupCell] at this
  | cons c rest ih =>
    obtain ⟨k, w⟩ := c
    cases n with
    | nil => have := h k; simp [lookupCell] at this
    | cons d rest' =>
      obtain ⟨k', w'⟩ := d
      simp only [risingCells, Bool.and_eq_true] at hm hn
      have below : ∀ (x y : Nat) (l : List (Nat × α)), x < y →
          l.all (fun c => decide (y < c.1)) = true → l.all (fun c => decide (x < c.1)) = true := by
        intro x y l hxy hl
        simp only [List.all_eq_true, decide_eq_true_eq] at hl ⊢
        exact fun z hz => lt_trans hxy (hl z hz)
      rcases lt_trichotomy k k' with hlt | heq | hgt
      · have h1 := h k
        simp [lookupCell, Nat.ne_of_gt hlt, missing k rest' (below k k' rest' hlt hn.1)] at h1
      · subst heq
        have h1 := h k
        simp only [lookupCell, if_pos] at h1
        cases h1
        refine congrArg _ (ih hm.2 hn.2 fun a => ?_)
        by_cases hak : k = a
        · subst hak; rw [missing k rest hm.1, missing k rest' hn.1]
        · simpa [lookupCell, hak] using h a
      · have h1 := h k'
        simp [lookupCell, Nat.ne_of_gt hgt, missing k' rest (below k' k rest hgt hm.1)] at h1

end Cells

/-! ### One byte and one bit -/

namespace State

/-- A read after a write, at the same place and elsewhere. -/
theorem readByte_writeByte (s : State) (a x : Nat) (v : Byte) :
    (s.writeByte a v).readByte x = if x = a then v else s.readByte x := by
  unfold readByte
  split_ifs with h
  · subst h; simp [lookupCell_storeCell_same]
  · simp [lookupCell_storeCell_other a x v s.b h]

@[simp] theorem readByte_writeByte_same (s : State) (a : Nat) (v : Byte) :
    (s.writeByte a v).readByte a = v := by simp [readByte_writeByte]

theorem readByte_writeByte_other (s : State) (a x : Nat) (v : Byte) (h : x ≠ a) :
    (s.writeByte a v).readByte x = s.readByte x := by simp [readByte_writeByte, h]

theorem readBit_writeBit (s : State) (i x : Nat) (v : Bool) :
    (s.writeBit i v).readBit x = if x = i then v else s.readBit x := by
  unfold readBit
  split_ifs with h
  · subst h; simp [lookupCell_storeCell_same]
  · simp [lookupCell_storeCell_other i x v s.ba h]

@[simp] theorem readBit_writeBit_same (s : State) (i : Nat) (v : Bool) :
    (s.writeBit i v).readBit i = v := by simp [readBit_writeBit]

theorem readBit_writeBit_other (s : State) (i x : Nat) (v : Bool) (h : x ≠ i) :
    (s.writeBit i v).readBit x = s.readBit x := by simp [readBit_writeBit, h]

/-! ### Sequences of bytes -/

@[simp] theorem length_readBytes (s : State) (a n : Nat) : (s.readBytes a n).length = n := by
  induction n generalizing a with
  | zero => rfl
  | succ n ih => simp [readBytes, ih]

theorem getElem?_readBytes (s : State) (a n k : Nat) (h : k < n) :
    (s.readBytes a n)[k]? = some (s.readByte (a + k)) := by
  induction n generalizing a k with
  | zero => omega
  | succ n ih =>
    cases k with
    | zero => simp [readBytes]
    | succ k => simp [readBytes, ih (a + 1) k (by omega)]; congr 1; omega

/-- The bytes read are those of the range, whatever the states. -/
theorem readBytes_congr (s t : State) (a n : Nat)
    (h : ∀ k, k < n → t.readByte (a + k) = s.readByte (a + k)) :
    t.readBytes a n = s.readBytes a n := by
  induction n generalizing a with
  | zero => rfl
  | succ n ih =>
    simp only [readBytes]
    rw [show t.readByte a = s.readByte a from by simpa using h 0 (by omega),
      ih (a + 1) fun k hk => by
        have := h (k + 1) (by omega)
        simpa [Nat.add_assoc, Nat.add_comm 1 k] using this]

theorem readBytes_add (s : State) (a m n : Nat) :
    s.readBytes a (m + n) = s.readBytes a m ++ s.readBytes (a + m) n := by
  induction m generalizing a with
  | zero => simp [readBytes]
  | succ m ih =>
    rw [show m + 1 + n = (m + n) + 1 by omega]
    simp only [readBytes, List.cons_append, ih (a + 1)]
    rw [show a + 1 + m = a + (m + 1) by omega]

/-- What a sequence of bytes written leaves to read: the sequence, and the old bytes elsewhere. -/
theorem readByte_writeBytes (s : State) (a x : Nat) (vs : List Byte) :
    (s.writeBytes a vs).readByte x =
      if a ≤ x ∧ x < a + vs.length then (vs[x - a]?).getD 0 else s.readByte x := by
  induction vs generalizing s a with
  | nil => simp only [writeBytes, List.length_nil]; rw [if_neg (by omega)]
  | cons v vs ih =>
    simp only [writeBytes, ih, readByte_writeByte, List.length_cons]
    by_cases hx : x = a
    · subst hx; simp
    · by_cases hin : a + 1 ≤ x ∧ x < a + 1 + vs.length
      · rw [if_pos hin, if_pos (by omega), show x - a = (x - (a + 1)) + 1 by omega]; simp
      · rw [if_neg hin, if_neg hx, if_neg (by omega)]

theorem readBit_writeBits (s : State) (i x : Nat) (vs : List Bool) :
    (s.writeBits i vs).readBit x =
      if i ≤ x ∧ x < i + vs.length then (vs[x - i]?).getD false else s.readBit x := by
  induction vs generalizing s i with
  | nil => simp only [writeBits, List.length_nil]; rw [if_neg (by omega)]
  | cons v vs ih =>
    simp only [writeBits, ih, readBit_writeBit, List.length_cons]
    by_cases hx : x = i
    · subst hx; simp
    · by_cases hin : i + 1 ≤ x ∧ x < i + 1 + vs.length
      · rw [if_pos hin, if_pos (by omega), show x - i = (x - (i + 1)) + 1 by omega]; simp
      · rw [if_neg hin, if_neg hx, if_neg (by omega)]

/-- Writing bytes changes B and no other field. -/
theorem writeBytes_eq (s : State) (a : Nat) (vs : List Byte) :
    s.writeBytes a vs = { s with b := (s.writeBytes a vs).b } := by
  induction vs generalizing s a with
  | nil => rfl
  | cons v vs ih => simp only [writeBytes]; rw [ih]; rfl

/-- Writing bits changes BA and no other field. -/
theorem writeBits_eq (s : State) (i : Nat) (vs : List Bool) :
    s.writeBits i vs = { s with ba := (s.writeBits i vs).ba } := by
  induction vs generalizing s i with
  | nil => rfl
  | cons v vs ih => simp only [writeBits]; rw [ih]; rfl

@[simp] theorem readBit_writeBytes (s : State) (a : Nat) (vs : List Byte) (x : Nat) :
    (s.writeBytes a vs).readBit x = s.readBit x := by rw [writeBytes_eq]; rfl

@[simp] theorem readByte_writeBits (s : State) (i : Nat) (vs : List Bool) (x : Nat) :
    (s.writeBits i vs).readByte x = s.readByte x := by rw [writeBits_eq]; rfl

/-! ### The canonical form and the bounds -/

theorem wf_writeByte (s : State) (a : Nat) (v : Byte) (h : Memory.wf s.b = true) :
    Memory.wf (s.writeByte a v).b = true := risingCells_storeCell a v s.b h

theorem wf_writeBit (s : State) (i : Nat) (v : Bool) (h : BitArray.wf s.ba = true) :
    BitArray.wf (s.writeBit i v).ba = true := risingCells_storeCell i v s.ba h

theorem wf_writeBytes (s : State) (a : Nat) (vs : List Byte) (h : Memory.wf s.b = true) :
    Memory.wf (s.writeBytes a vs).b = true := by
  induction vs generalizing s a with
  | nil => exact h
  | cons v vs ih => exact ih _ _ (wf_writeByte s a v h)

theorem wf_writeBits (s : State) (i : Nat) (vs : List Bool) (h : BitArray.wf s.ba = true) :
    BitArray.wf (s.writeBits i vs).ba = true := by
  induction vs generalizing s i with
  | nil => exact h
  | cons v vs ih => exact ih _ _ (wf_writeBit s i v h)

theorem below_writeByte (s : State) (limit a : Nat) (v : Byte)
    (h : cellsBelow limit s.b = true) (ha : a < limit) :
    cellsBelow limit (s.writeByte a v).b = true := cellsBelow_storeCell limit a v s.b h ha

theorem below_writeBit (s : State) (limit i : Nat) (v : Bool)
    (h : cellsBelow limit s.ba = true) (hi : i < limit) :
    cellsBelow limit (s.writeBit i v).ba = true := cellsBelow_storeCell limit i v s.ba h hi

theorem below_writeBytes (s : State) (limit a : Nat) (vs : List Byte)
    (h : cellsBelow limit s.b = true) (ha : a + vs.length ≤ limit) :
    cellsBelow limit (s.writeBytes a vs).b = true := by
  induction vs generalizing s a with
  | nil => exact h
  | cons v vs ih =>
    simp only [List.length_cons] at ha
    exact ih _ _ (below_writeByte s limit a v h (by omega)) (by omega)

theorem below_writeBits (s : State) (limit i : Nat) (vs : List Bool)
    (h : cellsBelow limit s.ba = true) (hi : i + vs.length ≤ limit) :
    cellsBelow limit (s.writeBits i vs).ba = true := by
  induction vs generalizing s i with
  | nil => exact h
  | cons v vs ih =>
    simp only [List.length_cons] at hi
    exact ih _ _ (below_writeBit s limit i v h (by omega)) (by omega)

end State

end Sys2Proof.Machine
end

