-- ==== Sys2Proof/Laws/Bitmap.lean ====
section
/-! SUPPORT. Bytes, 16-bit fields and bitmaps: what each operation over them reads and writes
(spec/20_memory.md R40, R41; spec/41_field_codec.md R95). -/

namespace Sys2Proof.Machine

/-! ### Bytes of a half -/

@[simp] theorem joinBytes_hi_lo (v : Half) : joinBytes (hiByte v) (loByte v) = v := by
  unfold joinBytes hiByte loByte
  ext j hj
  simp only [BitVec.getElem_append, BitVec.getElem_extractLsb']
  split_ifs with h
  · simp [BitVec.getLsbD_eq_getElem hj]
  · rw [show 8 + (j - 8) = j by omega, BitVec.getLsbD_eq_getElem hj]

@[simp] theorem hiByte_joinBytes (hi lo : Byte) : hiByte (joinBytes hi lo) = hi := by
  unfold joinBytes hiByte
  ext j hj
  rw [BitVec.getElem_extractLsb']
  refine (BitVec.getLsbD_append (x := hi) (y := lo) (i := 8 + j)).trans ?_
  simp [BitVec.getLsbD_eq_getElem hj]

@[simp] theorem loByte_joinBytes (hi lo : Byte) : loByte (joinBytes hi lo) = lo := by
  unfold joinBytes loByte
  ext j hj
  rw [BitVec.getElem_extractLsb', Nat.zero_add]
  refine (BitVec.getLsbD_append (x := hi) (y := lo) (i := j)).trans ?_
  simp [hj]

/-- The value of a half from its bytes. -/
theorem toNat_joinBytes (hi lo : Byte) : (joinBytes hi lo).toNat = 256 * hi.toNat + lo.toNat := by
  unfold joinBytes
  rw [BitVec.toNat_append, ← Nat.shiftLeft_add_eq_or_of_lt lo.isLt, Nat.shiftLeft_eq]
  omega

/-- The bytes of a half from its value. -/
theorem toNat_hiByte (v : Half) : (hiByte v).toNat = v.toNat / 256 := by
  have h := toNat_joinBytes (hiByte v) (loByte v)
  rw [joinBytes_hi_lo] at h
  have := (loByte v).isLt
  omega

theorem toNat_loByte (v : Half) : (loByte v).toNat = v.toNat % 256 := by
  have h := toNat_joinBytes (hiByte v) (loByte v)
  rw [joinBytes_hi_lo] at h
  have := (loByte v).isLt
  omega

theorem joinBytes_inj {a b c d : Byte} : joinBytes a b = joinBytes c d ↔ a = c ∧ b = d := by
  constructor
  · intro h
    exact ⟨by simpa using congrArg hiByte h, by simpa using congrArg loByte h⟩
  · rintro ⟨rfl, rfl⟩; rfl

/-! ### Fields and trailers of B -/

@[simp] theorem State.readField_writeField (s : State) (o : Nat) (v : Half) :
    (s.writeField o v).readField o = v := by
  simp [readField, writeField, readByte_writeByte]

@[simp] theorem State.readTrailer_writeTrailer (s : State) (o : Nat) (v : Half) :
    (s.writeTrailer o v).readTrailer o = v := by
  simp [readTrailer, writeTrailer, readByte_writeByte]

theorem State.readByte_writeField_other (s : State) (o x : Nat) (v : Half)
    (h : ¬ (o ≤ x ∧ x < o + 2)) : (s.writeField o v).readByte x = s.readByte x := by
  unfold writeField
  rw [readByte_writeByte_other _ _ _ _ (by omega), readByte_writeByte_other _ _ _ _ (by omega)]

theorem State.readByte_writeTrailer_other (s : State) (o x : Nat) (v : Half)
    (h : ¬ (o ≤ x ∧ x < o + 2)) : (s.writeTrailer o v).readByte x = s.readByte x := by
  unfold writeTrailer
  rw [readByte_writeByte_other _ _ _ _ (by omega), readByte_writeByte_other _ _ _ _ (by omega)]

@[simp] theorem State.readBit_writeField (s : State) (o x : Nat) (v : Half) :
    (s.writeField o v).readBit x = s.readBit x := rfl

@[simp] theorem State.readBit_writeTrailer (s : State) (o x : Nat) (v : Half) :
    (s.writeTrailer o v).readBit x = s.readBit x := rfl

/-! ### The other fields after a field or a trailer is written -/

@[simp] theorem State.writeField_cfg (s : State) (o : Nat) (v : Half) :
    (s.writeField o v).cfg = s.cfg := rfl
@[simp] theorem State.writeField_ba (s : State) (o : Nat) (v : Half) :
    (s.writeField o v).ba = s.ba := rfl
@[simp] theorem State.writeField_r (s : State) (o : Nat) (v : Half) :
    (s.writeField o v).r = s.r := rfl
@[simp] theorem State.writeField_rWritten (s : State) (o : Nat) (v : Half) :
    (s.writeField o v).rWritten = s.rWritten := rfl
@[simp] theorem State.writeField_ok (s : State) (o : Nat) (v : Half) :
    (s.writeField o v).ok = s.ok := rfl
@[simp] theorem State.writeField_okWritten (s : State) (o : Nat) (v : Half) :
    (s.writeField o v).okWritten = s.okWritten := rfl
@[simp] theorem State.writeField_fault (s : State) (o : Nat) (v : Half) :
    (s.writeField o v).fault = s.fault := rfl
@[simp] theorem State.writeField_cause (s : State) (o : Nat) (v : Half) :
    (s.writeField o v).cause = s.cause := rfl
@[simp] theorem State.writeField_faultWord (s : State) (o : Nat) (v : Half) :
    (s.writeField o v).faultWord = s.faultWord := rfl
@[simp] theorem State.writeField_epoch (s : State) (o : Nat) (v : Half) :
    (s.writeField o v).epoch = s.epoch := rfl
@[simp] theorem State.writeField_padDraws (s : State) (o : Nat) (v : Half) :
    (s.writeField o v).padDraws = s.padDraws := rfl
@[simp] theorem State.writeField_hostMoves (s : State) (o : Nat) (v : Half) :
    (s.writeField o v).hostMoves = s.hostMoves := rfl
@[simp] theorem State.writeField_hostRead (s : State) (o : Nat) (v : Half) :
    (s.writeField o v).hostRead = s.hostRead := rfl

@[simp] theorem State.writeTrailer_cfg (s : State) (o : Nat) (v : Half) :
    (s.writeTrailer o v).cfg = s.cfg := rfl
@[simp] theorem State.writeTrailer_ba (s : State) (o : Nat) (v : Half) :
    (s.writeTrailer o v).ba = s.ba := rfl
@[simp] theorem State.writeTrailer_r (s : State) (o : Nat) (v : Half) :
    (s.writeTrailer o v).r = s.r := rfl
@[simp] theorem State.writeTrailer_rWritten (s : State) (o : Nat) (v : Half) :
    (s.writeTrailer o v).rWritten = s.rWritten := rfl
@[simp] theorem State.writeTrailer_ok (s : State) (o : Nat) (v : Half) :
    (s.writeTrailer o v).ok = s.ok := rfl
@[simp] theorem State.writeTrailer_okWritten (s : State) (o : Nat) (v : Half) :
    (s.writeTrailer o v).okWritten = s.okWritten := rfl
@[simp] theorem State.writeTrailer_fault (s : State) (o : Nat) (v : Half) :
    (s.writeTrailer o v).fault = s.fault := rfl
@[simp] theorem State.writeTrailer_cause (s : State) (o : Nat) (v : Half) :
    (s.writeTrailer o v).cause = s.cause := rfl
@[simp] theorem State.writeTrailer_faultWord (s : State) (o : Nat) (v : Half) :
    (s.writeTrailer o v).faultWord = s.faultWord := rfl
@[simp] theorem State.writeTrailer_epoch (s : State) (o : Nat) (v : Half) :
    (s.writeTrailer o v).epoch = s.epoch := rfl
@[simp] theorem State.writeTrailer_padDraws (s : State) (o : Nat) (v : Half) :
    (s.writeTrailer o v).padDraws = s.padDraws := rfl
@[simp] theorem State.writeTrailer_hostMoves (s : State) (o : Nat) (v : Half) :
    (s.writeTrailer o v).hostMoves = s.hostMoves := rfl
@[simp] theorem State.writeTrailer_hostRead (s : State) (o : Nat) (v : Half) :
    (s.writeTrailer o v).hostRead = s.hostRead := rfl

/-! ### Bitmaps -/

/-- Bit k of the byte made of `f` is `f k`. -/
theorem getLsbD_byteOfBits (f : Nat → Bool) (k : Nat) (h : k < 8) :
    (byteOfBits f).getLsbD k = f k := by
  unfold byteOfBits
  rw [BitVec.getLsbD_ofBoolListLE]
  interval_cases k <;> rfl

theorem ceil8_le_of_le_mul {n m : Nat} (h : n ≤ 8 * m) : ceil8 n ≤ m := by unfold ceil8; omega

/-- The byte of a logical bit is one of the bitmap's. -/
theorem div8_lt_ceil8 {n i : Nat} (h : i < n) : i / 8 < ceil8 n := by unfold ceil8; omega

/-- The byte count fits R (R96: 0 to 8192). -/
theorem ceil8_le (n : Half) : ceil8 n.toNat ≤ 8192 := by
  have := n.isLt
  unfold ceil8; omega

@[simp] theorem toNat_ceil8 (n : Half) : (BitVec.ofNat 16 (ceil8 n.toNat)).toNat = ceil8 n.toNat := by
  have := ceil8_le n
  rw [BitVec.toNat_ofNat, Nat.mod_eq_of_lt (by omega)]

@[simp] theorem State.length_packedBytes (s : State) (n bbase : Nat) (pad : Byte) :
    (s.packedBytes n bbase pad).length = ceil8 n := by simp [packedBytes]

@[simp] theorem State.length_bitmapBits (s : State) (off n : Nat) :
    (s.bitmapBits off n).length = n := by simp [bitmapBits]

theorem State.getElem?_packedBytes (s : State) (n bbase : Nat) (pad : Byte) (j : Nat)
    (h : j < ceil8 n) : (s.packedBytes n bbase pad)[j]? = some (s.packedByte n bbase pad j) := by
  simp [packedBytes, h]

theorem State.getElem?_bitmapBits (s : State) (off n i : Nat) (h : i < n) :
    (s.bitmapBits off n)[i]? = some (s.bitmapBit off i) := by
  simp [bitmapBits, h]

/-- A bit of a packed byte: a logical bit, or a padding bit beyond N (R95, R97). -/
theorem State.getLsbD_packedByte (s : State) (n bbase : Nat) (pad : Byte) (j k : Nat) (h : k < 8) :
    (s.packedByte n bbase pad j).getLsbD k =
      if 8 * j + k < n then s.readBit (bbase + (8 * j + k)) else pad.getLsbD k := by
  unfold packedByte
  rw [getLsbD_byteOfBits _ _ h]

/-- The bytes of a bitmap just written are the packed bytes. -/
theorem State.readByte_packed (s t : State) (off n bbase : Nat) (pad : Byte) (j : Nat)
    (h : j < ceil8 n) :
    (t.writeBytes off (s.packedBytes n bbase pad)).readByte (off + j) =
      s.packedByte n bbase pad j := by
  rw [readByte_writeBytes, if_pos (by simp; omega), Nat.add_sub_cancel_left,
    getElem?_packedBytes _ _ _ _ _ h]
  rfl

/-- A logical bit of a bitmap just written is the packed bit (R95, R96). -/
theorem State.bitmapBit_packed (s t : State) (off n bbase : Nat) (pad : Byte) (i : Nat)
    (h : i < n) :
    (t.writeBytes off (s.packedBytes n bbase pad)).bitmapBit off i = s.readBit (bbase + i) := by
  unfold bitmapBit
  rw [readByte_packed _ _ _ _ _ _ _ (div8_lt_ceil8 h),
    getLsbD_packedByte _ _ _ _ _ _ (Nat.mod_lt _ (by omega)),
    show 8 * (i / 8) + i % 8 = i by omega, if_pos h]

/-- A bit of BA just unpacked is the bitmap's (R95, R99). -/
theorem State.readBit_unpacked (s t : State) (off n bbase i : Nat) (h : i < n) :
    (t.writeBits bbase (s.bitmapBits off n)).readBit (bbase + i) = s.bitmapBit off i := by
  rw [readBit_writeBits, if_pos (by simp; omega), Nat.add_sub_cancel_left,
    getElem?_bitmapBits _ _ _ _ h]
  rfl

end Sys2Proof.Machine
end

