-- ==== Sys2Proof/Laws/Checksum.lean ====
section
/-! SUPPORT. The CRC functions: they run over a sequence byte by byte, and they are linear over
XOR, which the residue and single-bit laws of spec/40_checksum.md and spec/42_frame_envelope.md
rest on. -/

namespace Sys2Proof.Machine

theorem crcFold_append (c : Half) (xs ys : List Byte) :
    crcFold c (xs ++ ys) = crcFold (crcFold c xs) ys := by
  induction xs generalizing c with
  | nil => rfl
  | cons x xs ih => exact ih _

theorem crcFold_eq_foldl (c : Half) (bs : List Byte) : crcFold c bs = bs.foldl crc16Step c := by
  induction bs generalizing c with
  | nil => rfl
  | cons b bs ih => exact ih _

/-- One iteration is linear over XOR. -/
theorem crcBit_xor (c d : Half) : crcBit (c ^^^ d) = crcBit c ^^^ crcBit d := by
  have split : ∀ x : Half, crcBit x = (x >>> 1) ^^^ (if x.getLsbD 0 then crcPoly else 0) := by
    intro x; unfold crcBit; split <;> simp
  rw [split, split c, split d, BitVec.ushiftRight_xor_distrib, BitVec.getLsbD_xor]
  generalize c >>> 1 = x, d >>> 1 = y, crcPoly = p
  cases c.getLsbD 0 <;> cases d.getLsbD 0 <;> ext j hj <;> simp <;>
    cases x[j] <;> cases y[j] <;> cases p[j] <;> rfl

/-- n iterations are linear over XOR. -/
theorem crcBits_xor (n : Nat) (c d : Half) : crcBits (c ^^^ d) n = crcBits c n ^^^ crcBits d n := by
  induction n generalizing c d with
  | zero => rfl
  | succ n ih => simp only [crcBits, crcBit_xor, ih]

/-- One byte update is linear over XOR in the accumulator and the byte together. -/
theorem crc16Step_xor (u v : Half) (a b : Byte) :
    crc16Step (u ^^^ v) (a ^^^ b) = crc16Step u a ^^^ crc16Step v b := by
  unfold crc16Step
  rw [← crcBits_xor]
  congr 1
  ext j hj
  simp only [BitVec.getElem_xor, BitVec.truncate_eq_setWidth, BitVec.getElem_setWidth,
    BitVec.getLsbD_xor]
  cases u[j] <;> cases v[j] <;> cases a.getLsbD j <;> cases b.getLsbD j <;> rfl

/-! ### No difference is lost -/

/-- One iteration takes only 0 to 0: the polynomial's top bit is set. -/
theorem crcBit_eq_zero (c : Half) (h : crcBit c = 0) : c = 0 := by
  unfold crcBit crcPoly at h
  split at h
  · have := congrArg (fun v : Half => v.getLsbD 15) h
    simp at this
  · rename_i h0
    apply BitVec.eq_of_getLsbD_eq
    intro i hi
    by_cases hz : i = 0
    · subst hz; simpa using h0
    · have := congrArg (fun v : Half => v.getLsbD (i - 1)) h
      simp only [BitVec.getLsbD_ushiftRight, show 1 + (i - 1) = i by omega] at this
      simpa using this

theorem crcBits_eq_zero (n : Nat) (c : Half) (h : crcBits c n = 0) : c = 0 := by
  induction n generalizing c with
  | zero => exact h
  | succ n ih => exact crcBit_eq_zero _ (ih _ h)

@[simp] theorem crcBits_zero (n : Nat) : crcBits 0 n = 0 := by
  induction n with
  | zero => rfl
  | succ n ih => exact ih

/-- A difference in the accumulator stays a difference after a byte. -/
theorem crc16Step_difference (u d : Half) (b : Byte) :
    crc16Step (u ^^^ d) b = crc16Step u b ^^^ crc16Step d 0 := by
  simpa using crc16Step_xor u d b 0

/-- A difference in the byte becomes a difference in the accumulator. -/
theorem crc16Step_byte_difference (u : Half) (b e : Byte) :
    crc16Step u (b ^^^ e) = crc16Step u b ^^^ crc16Step 0 e := by
  simpa using crc16Step_xor u 0 b e

theorem crc16Step_zero_ne (d : Half) (h : d ≠ 0) : crc16Step d 0 ≠ 0 := by
  intro h'
  exact h (by simpa using crcBits_eq_zero _ _ h')

/-- A nonzero difference in the accumulator never disappears, whatever bytes follow. -/
theorem crcFold_difference_ne (u d : Half) (bs : List Byte) (h : d ≠ 0) :
    crcFold (u ^^^ d) bs ≠ crcFold u bs := by
  induction bs generalizing u d with
  | nil =>
    intro h'
    simp only [crcFold] at h'
    have := congrArg (fun v : Half => u ^^^ v) h'
    simp only [← BitVec.xor_assoc, BitVec.xor_self, BitVec.zero_xor] at this
    exact h this
  | cons b bs ih =>
    simp only [crcFold]
    rw [crc16Step_difference]
    exact ih _ _ (crc16Step_zero_ne d h)

/-- The accumulator's own low byte shifts its high byte down. -/
theorem crc16Step_low (hi lo : Byte) : crc16Step (joinBytes hi lo) lo = hi.zeroExtend 16 := by
  have h : joinBytes hi lo ^^^ lo.zeroExtend 16 = joinBytes hi 0 := by
    unfold joinBytes
    ext j hj
    rw [BitVec.getElem_xor, BitVec.getElem_append, BitVec.getElem_append]
    split_ifs with h8
    · simp [BitVec.getLsbD_eq_getElem h8]
    · simp [BitVec.getLsbD_of_ge lo j (by omega)]
  have shift : ∀ b : Byte, crcBits (joinBytes b 0) 8 = b.zeroExtend 16 := by decide
  rw [crc16Step, h, shift]

end Sys2Proof.Machine
end

