-- ==== Sys2Proof/Laws/Encoding.lean ====
section
/-! SUPPORT. The fields of a word (spec/30_encoding.md R61): each field of a packed word is what was
packed, and a word is its fields. -/

namespace Sys2Proof

variable (rsv opc : Byte) (fc fb fa : Half)

/-- A bit of a packed word. -/
theorem getLsbD_packWord (j : Nat) :
    (packWord rsv fc fb fa opc).getLsbD j =
      if j < 8 then opc.getLsbD j
      else if j < 24 then fa.getLsbD (j - 8)
      else if j < 40 then fb.getLsbD (j - 24)
      else if j < 56 then fc.getLsbD (j - 40)
      else rsv.getLsbD (j - 56) := by
  unfold packWord
  refine (BitVec.getLsbD_append (x := rsv ++ fc ++ fb ++ fa) (y := opc) (i := j)).trans ?_
  split_ifs with h1 h2 h3 h4 <;> try rfl
  all_goals
    refine (BitVec.getLsbD_append (x := rsv ++ fc ++ fb) (y := fa) (i := j - 8)).trans ?_
  · rw [if_pos (by omega)]
  all_goals
    rw [if_neg (by omega)]
    refine (BitVec.getLsbD_append (x := rsv ++ fc) (y := fb) (i := j - 8 - 16)).trans ?_
  · rw [if_pos (by omega), show j - 8 - 16 = j - 24 by omega]
  all_goals
    rw [if_neg (by omega)]
    refine (BitVec.getLsbD_append (x := rsv) (y := fc) (i := j - 8 - 16 - 16)).trans ?_
  · rw [if_pos (by omega), show j - 8 - 16 - 16 = j - 40 by omega]
  · rw [if_neg (by omega), show j - 8 - 16 - 16 - 16 = j - 56 by omega]

@[simp] theorem fieldOPC_packWord : fieldOPC (packWord rsv fc fb fa opc) = opc := by
  ext j hj
  rw [fieldOPC, BitVec.getElem_extractLsb', getLsbD_packWord, if_pos (by omega), Nat.zero_add,
    BitVec.getLsbD_eq_getElem hj]

@[simp] theorem fieldFA_packWord : fieldFA (packWord rsv fc fb fa opc) = fa := by
  ext j hj
  rw [fieldFA, BitVec.getElem_extractLsb', getLsbD_packWord, if_neg (by omega), if_pos (by omega),
    Nat.add_sub_cancel_left, BitVec.getLsbD_eq_getElem hj]

@[simp] theorem fieldFB_packWord : fieldFB (packWord rsv fc fb fa opc) = fb := by
  ext j hj
  rw [fieldFB, BitVec.getElem_extractLsb', getLsbD_packWord, if_neg (by omega), if_neg (by omega),
    if_pos (by omega), Nat.add_sub_cancel_left, BitVec.getLsbD_eq_getElem hj]

@[simp] theorem fieldFC_packWord : fieldFC (packWord rsv fc fb fa opc) = fc := by
  ext j hj
  rw [fieldFC, BitVec.getElem_extractLsb', getLsbD_packWord, if_neg (by omega), if_neg (by omega),
    if_neg (by omega), if_pos (by omega), Nat.add_sub_cancel_left, BitVec.getLsbD_eq_getElem hj]

@[simp] theorem fieldRSV_packWord : fieldRSV (packWord rsv fc fb fa opc) = rsv := by
  ext j hj
  rw [fieldRSV, BitVec.getElem_extractLsb', getLsbD_packWord, if_neg (by omega), if_neg (by omega),
    if_neg (by omega), if_neg (by omega), Nat.add_sub_cancel_left, BitVec.getLsbD_eq_getElem hj]

/-- A word is its five fields. -/
theorem packWord_fields (w : Cmd) :
    packWord (fieldRSV w) (fieldFC w) (fieldFB w) (fieldFA w) (fieldOPC w) = w := by
  apply BitVec.eq_of_getLsbD_eq
  intro j hj
  rw [getLsbD_packWord]
  simp only [fieldRSV, fieldFC, fieldFB, fieldFA, fieldOPC, BitVec.getLsbD_extractLsb']
  split_ifs <;> rw [decide_eq_true (by omega), Bool.true_and] <;> congr 1 <;> omega

/-! ### CRCSTEP's byte in FB (R62): the high half is 0 -/

theorem zeroHigh_hi (b : Byte) : ((0 : Byte) ++ b : Half).extractLsb' 8 8 = (0 : Byte) := by
  revert b; decide

theorem zeroHigh_lo (b : Byte) : ((0 : Byte) ++ b : Half).extractLsb' 0 8 = b := by
  revert b; decide

/-- A half whose high byte is 0 is its low byte with zeros above. -/
theorem half_of_zeroHigh (h : Half) (hz : h.extractLsb' 8 8 = (0 : Byte)) :
    ((0 : Byte) ++ h.extractLsb' 0 8 : Half) = h := by
  ext j hj
  rw [BitVec.getElem_append]
  split_ifs with h8
  · rw [BitVec.getElem_extractLsb', Nat.zero_add, BitVec.getLsbD_eq_getElem hj]
  · have := congrArg (fun v : Byte => v.getLsbD (j - 8)) hz
    simp only [BitVec.getLsbD_extractLsb'] at this
    rw [show 8 + (j - 8) = j by omega, BitVec.getLsbD_eq_getElem hj] at this
    simp only [show j - 8 < 8 by omega, decide_true, Bool.true_and] at this
    rw [this]; simp

/-! ### Opcodes -/

/-- The operation code has the number it is found by, and only it. -/
theorem Opcode.ofByte_eq_some (b : Byte) (op : Opcode) :
    Opcode.ofByte b = some op ↔ b = op.code := by
  revert b; cases op <;> decide

@[simp] theorem Opcode.ofByte_code (op : Opcode) : Opcode.ofByte op.code = some op :=
  (Opcode.ofByte_eq_some _ _).2 rfl

@[simp] theorem fieldOPC_encode (i : Instr) : fieldOPC (encode i) = i.opcode.code := by
  cases i <;> simp [encode, Instr.opcode, Opcode.code]

end Sys2Proof
end

