-- ==== Sys2Proof/Laws/Exec.lean ====
section
/-! SUPPORT. What a command can answer: one lemma per meaning, which says every next state it can
give. Proofs cite these and unfold no meaning. -/

namespace Sys2Proof.Machine

/-! ### Taking a command (R127) -/

@[simp] theorem State.accept_clear (s : State) (o : Answer) (h : s.fault = false) :
    s.accept o = o := by simp [accept, h]

@[simp] theorem State.accept_faulted (s : State) (o : Answer) (h : s.fault = true) :
    s.accept o = .fault .commandWhileFaulted := by simp [accept, h]

theorem State.accept_eq_next (s t : State) (o : Answer) :
    s.accept o = .next t ↔ s.fault = false ∧ o = .next t := by
  unfold accept
  cases s.fault <;> simp

/-! ### One lemma per command -/

/-- Two next states are one. -/
theorem next_eq_next (u t : State) : (.next u : Answer) = .next t ↔ t = u := by
  constructor
  · rintro ⟨⟩; rfl
  · rintro rfl; rfl

/-- A choice between two next states answers next. -/
theorem next_or_operandFault {p : Prop} [Decidable p] (s u t : State) (i : Instr) :
    ((if p then .next u else s.operandFault i : Answer) = .next t) ↔
      (p ∧ t = u) ∨ (¬ p ∧ t = s.raise .operandFault (encode i)) := by
  unfold State.operandFault
  split_ifs with h
  · simp only [h, next_eq_next, true_and, not_true_eq_false, false_and, or_false]
  · simp only [h, next_eq_next, not_false_eq_true, true_and, false_and, false_or]

theorem execCrc16_next (off len : Half) (s t : State) :
    execCrc16 off len s = .next t ↔ s.fault = false ∧
      ((s.hasBytes off.toNat len.toNat = true ∧
          t = (s.setR (crc16 (s.readBytes off.toNat len.toNat))).setOk true) ∨
        (¬ s.hasBytes off.toNat len.toNat = true ∧
          t = s.raise .operandFault (encode (.crc16 off len)))) := by
  simp only [execCrc16, State.accept_eq_next, next_or_operandFault]

theorem execCrcstep_next (crc : Half) (byte : Byte) (s t : State) :
    execCrcstep crc byte s = .next t ↔
      s.fault = false ∧ t = (s.setR (crc16Step crc byte)).setOk true := by
  simp only [execCrcstep, State.accept_eq_next, next_eq_next]

theorem execRdu16_next (off : Half) (s t : State) :
    execRdu16 off s = .next t ↔ s.fault = false ∧
      ((s.hasBytes off.toNat 2 = true ∧ t = (s.setR (s.readField off.toNat)).setOk true) ∨
        (¬ s.hasBytes off.toNat 2 = true ∧ t = s.raise .operandFault (encode (.rdu16 off)))) := by
  simp only [execRdu16, State.accept_eq_next, next_or_operandFault]

theorem execWru16_next (off value : Half) (s t : State) :
    execWru16 off value s = .next t ↔ s.fault = false ∧
      ((s.hasBytes off.toNat 2 = true ∧ t = (s.writeField off.toNat value).setOk true) ∨
        (¬ s.hasBytes off.toNat 2 = true ∧
          t = s.raise .operandFault (encode (.wru16 off value)))) := by
  simp only [execWru16, State.accept_eq_next, next_or_operandFault]

/-- The state a PACK within bounds leaves. -/
abbrev State.packed (s : State) (off n bbase : Half) : State :=
  ((((s.writeBytes off.toNat
      (s.packedBytes n.toNat bbase.toNat (s.pad off n bbase))).tickPad).setR
    (BitVec.ofNat 16 (ceil8 n.toNat))).setOk true)

theorem execPack_next (off n bbase : Half) (s t : State) :
    execPack off n bbase s = .next t ↔ s.fault = false ∧
      (((s.hasBytes off.toNat (ceil8 n.toNat) && s.hasBits bbase.toNat n.toNat) = true ∧
          t = s.packed off n bbase) ∨
        (¬ (s.hasBytes off.toNat (ceil8 n.toNat) && s.hasBits bbase.toNat n.toNat) = true ∧
          t = s.raise .operandFault (encode (.pack off n bbase)))) := by
  simp only [execPack, State.accept_eq_next, next_or_operandFault]

/-- The state an UNPACK within bounds leaves. -/
abbrev State.unpacked (s : State) (off n bbase : Half) : State :=
  (((s.writeBits bbase.toNat (s.bitmapBits off.toNat n.toNat)).setR
    (BitVec.ofNat 16 (ceil8 n.toNat))).setOk true)

theorem execUnpack_next (off n bbase : Half) (s t : State) :
    execUnpack off n bbase s = .next t ↔ s.fault = false ∧
      (((s.hasBytes off.toNat (ceil8 n.toNat) && s.hasBits bbase.toNat n.toNat) = true ∧
          t = s.unpacked off n bbase) ∨
        (¬ (s.hasBytes off.toNat (ceil8 n.toNat) && s.hasBits bbase.toNat n.toNat) = true ∧
          t = s.raise .operandFault (encode (.unpack off n bbase)))) := by
  simp only [execUnpack, State.accept_eq_next, next_or_operandFault]

/-- The state a CHKCRC of a frame within bounds leaves. -/
abbrev State.checked (s : State) (off len : Half) : State :=
  (s.setR (s.payloadCrc off.toNat len.toNat)).setOk
    (s.trailerMatches off.toNat len.toNat (s.payloadCrc off.toNat len.toNat))

theorem execChkcrc_next (off len : Half) (s t : State) :
    execChkcrc off len s = .next t ↔ s.fault = false ∧
      ((len.toNat ≤ 2 ∧ t = s.setOk false) ∨
        (2 < len.toNat ∧ s.hasBytes off.toNat len.toNat = true ∧ t = s.checked off len) ∨
        (2 < len.toNat ∧ ¬ s.hasBytes off.toNat len.toNat = true ∧
          t = s.raise .operandFault (encode (.chkcrc off len)))) := by
  simp only [execChkcrc, State.accept_eq_next]
  by_cases h : len.toNat ≤ 2
  · simp only [h, if_true, next_eq_next, true_and, Nat.not_lt.2 h, false_and, or_false]
  · simp only [h, if_false, next_or_operandFault, false_and, false_or, Nat.lt_of_not_le h,
      true_and]

/-- The state an APPCRC of a frame within bounds leaves. -/
abbrev State.sealed (s : State) (off len : Half) : State :=
  ((s.writeTrailer (off.toNat + len.toNat - 2) (s.payloadCrc off.toNat len.toNat)).setR
    (s.payloadCrc off.toNat len.toNat)).setOk true

theorem execAppcrc_next (off len : Half) (s t : State) :
    execAppcrc off len s = .next t ↔ s.fault = false ∧
      ((len.toNat ≤ 2 ∧ t = s.setOk false) ∨
        (2 < len.toNat ∧ s.hasBytes off.toNat len.toNat = true ∧ t = s.sealed off len) ∨
        (2 < len.toNat ∧ ¬ s.hasBytes off.toNat len.toNat = true ∧
          t = s.raise .operandFault (encode (.appcrc off len)))) := by
  simp only [execAppcrc, State.accept_eq_next]
  by_cases h : len.toNat ≤ 2
  · simp only [h, if_true, next_eq_next, true_and, Nat.not_lt.2 h, false_and, or_false]
  · simp only [h, if_false, next_or_operandFault, false_and, false_or, Nat.lt_of_not_le h,
      true_and]

/-! ### All commands at once -/

/-- The state a command leaves when its footprint is within bounds. -/
def effect (i : Instr) (s : State) : State :=
  match i with
  | .crc16 off len => (s.setR (crc16 (s.readBytes off.toNat len.toNat))).setOk true
  | .crcstep crc byte => (s.setR (crc16Step crc byte)).setOk true
  | .rdu16 off => (s.setR (s.readField off.toNat)).setOk true
  | .wru16 off value => (s.writeField off.toNat value).setOk true
  | .pack off n bbase => s.packed off n bbase
  | .unpack off n bbase => s.unpacked off n bbase
  | .chkcrc off len => if len.toNat ≤ 2 then s.setOk false else s.checked off len
  | .appcrc off len => if len.toNat ≤ 2 then s.setOk false else s.sealed off len

/-- The footprint of a frame command with len > 2 fits exactly when the frame does. -/
theorem footprintFits_frame (c : Config) (off len : Half) (h : ¬ len.toNat ≤ 2) :
    footprintFits c (footprint (.chkcrc off len)) = decide (off.toNat + len.toNat ≤ c.bufLen) ∧
    footprintFits c (footprint (.appcrc off len)) = decide (off.toNat + len.toNat ≤ c.bufLen) := by
  refine ⟨by simp [footprint, footprintFits, spanFits, h], ?_⟩
  rw [Bool.eq_iff_iff]
  simp only [footprint, footprintFits, spanFits, h, if_false, Bool.and_true, Bool.and_eq_true,
    decide_eq_true_eq]
  omega

/-- What a command does: nothing in a faulted state, else its effect when its footprint fits and
OperandFault when it does not (R44, R120, R125, R127). -/
theorem exec_eq (i : Instr) (s : State) :
    exec i s = s.accept
      (if footprintFits s.cfg (footprint i) = true then .next (effect i s)
        else s.operandFault i) := by
  cases i with
  | crc16 off len =>
    simp [exec, execCrc16, effect, footprint, footprintFits, spanFits, State.hasBytes]
  | crcstep crc byte => rfl
  | rdu16 off =>
    simp [exec, execRdu16, effect, footprint, footprintFits, spanFits, State.hasBytes]
  | wru16 off value =>
    simp [exec, execWru16, effect, footprint, footprintFits, spanFits, State.hasBytes]
  | pack off n bbase =>
    simp [exec, execPack, effect, footprint, footprintFits, spanFits, State.hasBytes,
      State.hasBits]
  | unpack off n bbase =>
    simp [exec, execUnpack, effect, footprint, footprintFits, spanFits, State.hasBytes,
      State.hasBits]
  | chkcrc off len =>
    by_cases h : len.toNat ≤ 2
    · simp [exec, execChkcrc, effect, h, footprint, footprintFits, spanFits]
    · rw [(footprintFits_frame s.cfg off len h).1]
      simp [exec, execChkcrc, effect, h, State.hasBytes]
  | appcrc off len =>
    by_cases h : len.toNat ≤ 2
    · simp [exec, execAppcrc, effect, h, footprint, footprintFits, spanFits]
    · rw [(footprintFits_frame s.cfg off len h).2]
      simp [exec, execAppcrc, effect, h, State.hasBytes]

/-- Every next state a command can give. -/
theorem exec_next (i : Instr) (s t : State) :
    exec i s = .next t ↔ s.fault = false ∧
      ((footprintFits s.cfg (footprint i) = true ∧ t = effect i s) ∨
        (¬ footprintFits s.cfg (footprint i) = true ∧
          t = s.raise .operandFault (encode i))) := by
  rw [exec_eq, State.accept_eq_next, next_or_operandFault]

/-- An effect writes only B, BA, R, OK and the pad counter. -/
theorem effect_eq (i : Instr) (s : State) :
    effect i s = { s with
      b := (effect i s).b
      ba := (effect i s).ba
      r := (effect i s).r
      rWritten := (effect i s).rWritten
      ok := (effect i s).ok
      okWritten := true
      padDraws := (effect i s).padDraws } := by
  cases i with
  | crc16 off len => rfl
  | crcstep crc byte => rfl
  | rdu16 off => rfl
  | wru16 off value => rfl
  | pack off n bbase => simp only [effect, State.packed]; rw [State.writeBytes_eq]; rfl
  | unpack off n bbase => simp only [effect, State.unpacked]; rw [State.writeBits_eq]; rfl
  | chkcrc off len => simp only [effect]; split_ifs <;> rfl
  | appcrc off len => simp only [effect]; split_ifs <;> rfl

@[simp] theorem effect_cfg (i : Instr) (s : State) : (effect i s).cfg = s.cfg := by
  rw [effect_eq]
@[simp] theorem effect_fault (i : Instr) (s : State) : (effect i s).fault = s.fault := by
  rw [effect_eq]
@[simp] theorem effect_cause (i : Instr) (s : State) : (effect i s).cause = s.cause := by
  rw [effect_eq]
@[simp] theorem effect_faultWord (i : Instr) (s : State) :
    (effect i s).faultWord = s.faultWord := by rw [effect_eq]
@[simp] theorem effect_epoch (i : Instr) (s : State) : (effect i s).epoch = s.epoch := by
  rw [effect_eq]
@[simp] theorem effect_hostMoves (i : Instr) (s : State) :
    (effect i s).hostMoves = s.hostMoves := by rw [effect_eq]
@[simp] theorem effect_hostRead (i : Instr) (s : State) :
    (effect i s).hostRead = s.hostRead := by rw [effect_eq]
@[simp] theorem effect_okWritten (i : Instr) (s : State) : (effect i s).okWritten = true := by
  rw [effect_eq]

/-- R's written mark is never cleared by an effect. -/
theorem effect_rWritten (i : Instr) (s : State) (h : s.rWritten = true) :
    (effect i s).rWritten = true := by
  cases i with
  | crc16 off len => rfl
  | crcstep crc byte => rfl
  | rdu16 off => rfl
  | wru16 off value => exact h
  | pack off n bbase => rfl
  | unpack off n bbase => rfl
  | chkcrc off len => simp only [effect]; split_ifs <;> first | exact h | rfl
  | appcrc off len => simp only [effect]; split_ifs <;> first | exact h | rfl

end Sys2Proof.Machine
end

