-- ==== Sys2Proof/Laws/HostPort.lean ====
section
/-! SUPPORT. What a move of the host and a step can answer (spec/70_reset_and_hazards.md R146). -/

namespace Sys2Proof.Machine

/-- A command word answers next only as the command it decodes to, or as IllegalCommand. -/
theorem issueWord_next (w : Cmd) (s t : State) :
    issueWord w s = .next t ↔
      (∃ i, decode w = .ok i ∧ exec i s = .next t) ∨
      (∃ e, decode w = .error e ∧ s.fault = false ∧ t = s.raise .illegalCommand w) := by
  unfold issueWord
  cases decode w with
  | ok i => simp
  | error e => simp [State.accept_eq_next, State.illegalCommand, eq_comm (b := t)]

/-- A host write of a byte answers next only inside B. -/
theorem hostMove_writeByte_next (a : Nat) (v : Byte) (s t : State) :
    hostMove (.writeByte a v) s = .next t ↔ a < s.cfg.bufLen ∧ t = s.writeByte a v := by
  simp only [hostMove]; split_ifs with h <;> simp [h, eq_comm (b := t)]

theorem hostMove_readByte_next (a : Nat) (s t : State) :
    hostMove (.readByte a) s = .next t ↔
      a < s.cfg.bufLen ∧ t = s.returns (.byte (s.readByte a)) := by
  simp only [hostMove]; split_ifs with h <;> simp [h, eq_comm (b := t)]

theorem hostMove_writeBit_next (i : Nat) (v : Bool) (s t : State) :
    hostMove (.writeBit i v) s = .next t ↔ i < s.cfg.bitLen ∧ t = s.writeBit i v := by
  simp only [hostMove]; split_ifs with h <;> simp [h, eq_comm (b := t)]

theorem hostMove_readBit_next (i : Nat) (s t : State) :
    hostMove (.readBit i) s = .next t ↔
      i < s.cfg.bitLen ∧ t = s.returns (.bit (s.readBit i)) := by
  simp only [hostMove]; split_ifs with h <;> simp [h, eq_comm (b := t)]

/-- What the host sees of R: its value once written, and no value before. -/
theorem observedR_written (s : State) (h : s.rWritten = true) : s.observedR = .result s.r :=
  if_pos h

theorem observedR_unwritten (s : State) (h : s.rWritten = false) :
    s.observedR = .observationFault := by
  simp [State.observedR, h]

/-- What the host sees of OK: its value once written, and no value before. -/
theorem observedOk_written (s : State) (h : s.okWritten = true) : s.observedOk = .status s.ok :=
  if_pos h

theorem observedOk_unwritten (s : State) (h : s.okWritten = false) :
    s.observedOk = .observationFault := by
  simp [State.observedOk, h]

theorem hostMove_readR_next (s t : State) :
    hostMove .readR s = .next t ↔ t = s.returns s.observedR := by
  simp only [hostMove, next_eq_next]

theorem hostMove_readOk_next (s t : State) :
    hostMove .readOk s = .next t ↔ t = s.returns s.observedOk := by
  simp only [hostMove, next_eq_next]

theorem hostMove_readFault_next (s t : State) :
    hostMove .readFault s = .next t ↔ t = s.returns s.faultRecord := by
  simp only [hostMove, next_eq_next]

theorem hostMove_reset_next (s t : State) :
    hostMove .reset s = .next t ↔ t = s.applyReset := by
  simp only [hostMove, next_eq_next]

theorem hostMove_resetDuring_next (w : Cmd) (s t : State) :
    hostMove (.resetDuring w) s = .next t ↔ s.fault = false ∧ t = s.applyReset := by
  simp only [hostMove, State.accept_eq_next, next_eq_next]

/-- What a move that applies no reset can answer: what the issued command answers, a value read, or
a location written inside B or BA. -/
theorem hostMove_next (m : HostMove) (s t : State) (hm : m ≠ .reset ∧ ∀ w, m ≠ .resetDuring w)
    (h : hostMove m s = .next t) :
    (∃ w, m = .issue w ∧ issueWord w s = .next t) ∨
    (∃ d, t = s.returns d) ∨
    (∃ a v, a < s.cfg.bufLen ∧ t = s.writeByte a v) ∨
    (∃ i v, i < s.cfg.bitLen ∧ t = s.writeBit i v) := by
  cases m with
  | writeByte a v => exact .inr (.inr (.inl ⟨a, v, (hostMove_writeByte_next a v s t).1 h⟩))
  | readByte a => exact .inr (.inl ⟨_, ((hostMove_readByte_next a s t).1 h).2⟩)
  | writeBit i v => exact .inr (.inr (.inr ⟨i, v, (hostMove_writeBit_next i v s t).1 h⟩))
  | readBit i => exact .inr (.inl ⟨_, ((hostMove_readBit_next i s t).1 h).2⟩)
  | readR => exact .inr (.inl ⟨_, (hostMove_readR_next s t).1 h⟩)
  | readOk => exact .inr (.inl ⟨_, (hostMove_readOk_next s t).1 h⟩)
  | readFault => exact .inr (.inl ⟨_, (hostMove_readFault_next s t).1 h⟩)
  | issue w => exact .inl ⟨w, rfl, h⟩
  | reset => exact absurd rfl hm.1
  | resetDuring w => exact absurd rfl (hm.2 w)

/-- A step is the host's next move, or nothing when there is none. -/
theorem step_cons (s : State) (m : HostMove) (rest : List HostMove)
    (h : s.hostMoves = m :: rest) : step s = hostMove m { s with hostMoves := rest } := by
  simp [step, h]

theorem step_nil (s : State) (h : s.hostMoves = []) : step s = .next s := by
  simp [step, h]

end Sys2Proof.Machine
end

