-- ==== Sys2Proof/Laws/PerInstr.lean ====
section
/-! SUPPORT. Statements made per instruction. Family OneRow: a command's word is matched by the row
of the opcode table with its operation code and by no other row (spec/30_encoding.md R63). -/

namespace Sys2Proof

/-! ### Masks over packed words -/

/-- AND works field by field. -/
theorem packWord_and (a b : Byte) (c d e : Half) (a' b' : Byte) (c' d' e' : Half) :
    packWord a c d e b &&& packWord a' c' d' e' b' =
      packWord (a &&& a') (c &&& c') (d &&& d') (e &&& e') (b &&& b') := by
  apply BitVec.eq_of_getLsbD_eq
  intro j hj
  rw [BitVec.getLsbD_and]
  simp only [getLsbD_packWord, BitVec.getLsbD_and]
  split_ifs <;> rfl

/-- Packed words are equal when their fields are. -/
theorem packWord_inj {a b : Byte} {c d e : Half} {a' b' : Byte} {c' d' e' : Half} :
    packWord a c d e b = packWord a' c' d' e' b' ↔ a = a' ∧ c = c' ∧ d = d' ∧ e = e' ∧ b = b' := by
  constructor
  · intro h
    exact ⟨by simpa using congrArg fieldRSV h, by simpa using congrArg fieldFC h,
      by simpa using congrArg fieldFB h, by simpa using congrArg fieldFA h,
      by simpa using congrArg fieldOPC h⟩
  · rintro ⟨rfl, rfl, rfl, rfl, rfl⟩; rfl

/-- The table with its words taken apart into fields. -/
theorem opcodeTable_fields : opcodeTable =
    [ ⟨.crc16, packWord 0 0 0 0 1, packWord 0xFF 0xFFFF 0 0 0xFF⟩,
      ⟨.crcstep, packWord 0 0 0 0 2, packWord 0xFF 0xFFFF 0xFF00 0 0xFF⟩,
      ⟨.rdu16, packWord 0 0 0 0 3, packWord 0xFF 0xFFFF 0xFFFF 0 0xFF⟩,
      ⟨.wru16, packWord 0 0 0 0 4, packWord 0xFF 0xFFFF 0 0 0xFF⟩,
      ⟨.pack, packWord 0 0 0 0 5, packWord 0xFF 0 0 0 0xFF⟩,
      ⟨.unpack, packWord 0 0 0 0 6, packWord 0xFF 0 0 0 0xFF⟩,
      ⟨.chkcrc, packWord 0 0 0 0 7, packWord 0xFF 0xFFFF 0 0 0xFF⟩,
      ⟨.appcrc, packWord 0 0 0 0 8, packWord 0xFF 0xFFFF 0 0 0xFF⟩ ] := by decide

/-- A byte of FB with its high half 0 leaves nothing under the mask of that half. -/
theorem zeroHigh_and (b : Byte) : ((0 : Byte) ++ b : Half) &&& 0xFF00 = 0 := by
  revert b; decide

namespace Laws.OneRow

/-- The word of the command is matched by the row of its operation code and by no other. -/
def Statement (i : Instr) : Prop :=
  ∀ row ∈ opcodeTable, row.hits (encode i) = decide (row.op = i.opcode)

theorem crc16 (off len : Half) : Statement (.crc16 off len) := by
  simp [Statement, opcodeTable_fields, TableRow.hits, encode, packWord_and, packWord_inj,
    Instr.opcode]

theorem crcstep (crc : Half) (byte : Byte) : Statement (.crcstep crc byte) := by
  simp [Statement, opcodeTable_fields, TableRow.hits, encode, packWord_and, packWord_inj,
    Instr.opcode]
  exact zeroHigh_and byte

theorem rdu16 (off : Half) : Statement (.rdu16 off) := by
  simp [Statement, opcodeTable_fields, TableRow.hits, encode, packWord_and, packWord_inj,
    Instr.opcode]

theorem wru16 (off value : Half) : Statement (.wru16 off value) := by
  simp [Statement, opcodeTable_fields, TableRow.hits, encode, packWord_and, packWord_inj,
    Instr.opcode]

theorem pack (off n bbase : Half) : Statement (.pack off n bbase) := by
  simp [Statement, opcodeTable_fields, TableRow.hits, encode, packWord_and, packWord_inj,
    Instr.opcode]

theorem unpack (off n bbase : Half) : Statement (.unpack off n bbase) := by
  simp [Statement, opcodeTable_fields, TableRow.hits, encode, packWord_and, packWord_inj,
    Instr.opcode]

theorem chkcrc (off len : Half) : Statement (.chkcrc off len) := by
  simp [Statement, opcodeTable_fields, TableRow.hits, encode, packWord_and, packWord_inj,
    Instr.opcode]

theorem appcrc (off len : Half) : Statement (.appcrc off len) := by
  simp [Statement, opcodeTable_fields, TableRow.hits, encode, packWord_and, packWord_inj,
    Instr.opcode]

end Laws.OneRow

end Sys2Proof
end

