-- ==== Sys2Proof/Laws/Run.lean ====
section
/-! SUPPORT. Runs of the machine: one step more, and the end of a run, one step nearer
(spec/70_reset_and_hazards.md R148). -/

namespace Sys2Proof.Machine

/-- A run of any machine that answers next took a step that answers next. -/
theorem coreRun_succ_next (M : Host.Core) (k : Nat) (s t : M.State) :
    M.run (k + 1) s = .next t ↔ ∃ u, M.step s = .next u ∧ M.run k u = .next t := by
  simp only [Host.Core.run]
  cases M.step s <;> simp

theorem run_zero_next (s t : State) :
    Host.Core.run Sys2Proof.core 0 s = .next t ↔ t = s := by
  constructor
  · rintro ⟨⟩; rfl
  · rintro rfl; rfl

/-- A run of this machine that answers next took a step that answers next. -/
theorem run_succ_next (k : Nat) (s t : State) :
    Host.Core.run Sys2Proof.core (k + 1) s = .next t ↔
      ∃ u : State, step s = .next u ∧ Host.Core.run Sys2Proof.core k u = .next t :=
  coreRun_succ_next Sys2Proof.core k s t

/-! ### A step takes one move of the host -/

/-- A command leaves the host's moves to come. -/
theorem issueWord_hostMoves (w : Cmd) (s t : State) (h : issueWord w s = .next t) :
    t.hostMoves = s.hostMoves := by
  rcases (issueWord_next w s t).1 h with ⟨i, -, hi⟩ | ⟨_, -, -, rfl⟩
  · obtain ⟨-, ⟨-, rfl⟩ | ⟨-, rfl⟩⟩ := (exec_next i s t).1 hi
    · exact effect_hostMoves i s
    · rfl
  · rfl

/-- A move of the host leaves the moves to come. -/
theorem hostMove_hostMoves (m : HostMove) (s t : State) (h : hostMove m s = .next t) :
    t.hostMoves = s.hostMoves := by
  by_cases hm : m ≠ .reset ∧ ∀ w, m ≠ .resetDuring w
  · rcases hostMove_next m s t hm h with ⟨w, -, hw⟩ | ⟨d, rfl⟩ | ⟨a, v, -, rfl⟩ | ⟨i, v, -, rfl⟩
    · exact issueWord_hostMoves w s t hw
    · rfl
    · rfl
    · rfl
  · cases m with
    | reset => rw [(hostMove_reset_next s t).1 h]; rfl
    | resetDuring w => rw [((hostMove_resetDuring_next w s t).1 h).2]; rfl
    | _ => simp at hm

/-- A step takes the first move and leaves the others. -/
theorem step_hostMoves (s t : State) (m : HostMove) (rest : List HostMove)
    (hm : s.hostMoves = m :: rest) (h : step s = .next t) : t.hostMoves = rest := by
  rw [step_cons s m rest hm] at h
  exact hostMove_hostMoves m _ t h

/-! ### The end of a run -/

/-- Where no command is to come, the run has ended here. -/
theorem endOfRun_ended (s : State) (h : s.ended) : s.endOfRun = .next s := by
  unfold State.ended at h
  unfold State.endOfRun
  cases hm : s.hostMoves with
  | nil => rfl
  | cons m rest => rw [hm] at h; simp [endAfter, h]

/-- Where a command is to come, the run goes on with the step. -/
theorem endOfRun_step (s t : State) (h : ¬ s.ended) (ht : step s = .next t) :
    s.endOfRun = t.endOfRun := by
  unfold State.ended at h
  unfold State.endOfRun
  cases hm : s.hostMoves with
  | nil => rw [hm] at h; exact absurd rfl h
  | cons m rest =>
    rw [step_hostMoves s t m rest hm ht]
    rw [hm] at h
    simp [endAfter, h, ht]

/-- Where the step stops before the last command, the run has no end. -/
theorem endOfRun_stop (s : State) (h : ¬ s.ended) (hs : ∀ t, step s ≠ .next t) :
    ∀ t, s.endOfRun ≠ .next t := by
  unfold State.ended at h
  unfold State.endOfRun
  cases hm : s.hostMoves with
  | nil => rw [hm] at h; exact absurd rfl h
  | cons m rest =>
    rw [hm] at h
    intro t
    cases ht : step s with
    | next u => exact absurd ht (hs u)
    | fault f => simp [endAfter, h, ht]
    | refused r => simp [endAfter, h, ht]

/-- Where no command is to come, the run succeeds when FAULT is clear. -/
theorem runSucceeds_ended (s : State) (h : s.ended) : s.runSucceeds = !s.fault := by
  unfold State.ended at h
  unfold State.runSucceeds
  cases hm : s.hostMoves with
  | nil => rfl
  | cons m rest => rw [hm] at h; simp [cleanAfter, h]

/-- Where a command is to come, the run succeeds when FAULT is clear and it succeeds from the step
on. -/
theorem runSucceeds_step (s t : State) (h : ¬ s.ended) (ht : step s = .next t) :
    s.runSucceeds = (!s.fault && t.runSucceeds) := by
  unfold State.ended at h
  unfold State.runSucceeds
  cases hm : s.hostMoves with
  | nil => rw [hm] at h; exact absurd rfl h
  | cons m rest =>
    rw [step_hostMoves s t m rest hm ht]
    rw [hm] at h
    simp [cleanAfter, h, ht]

/-- Where the step stops before the last command, the run does not succeed. -/
theorem runSucceeds_stop (s : State) (h : ¬ s.ended) (hs : ∀ t, step s ≠ .next t) :
    s.runSucceeds = false := by
  unfold State.ended at h
  unfold State.runSucceeds
  cases hm : s.hostMoves with
  | nil => rw [hm] at h; exact absurd rfl h
  | cons m rest =>
    rw [hm] at h
    cases ht : step s with
    | next u => exact absurd ht (hs u)
    | fault f => simp [cleanAfter, h, ht]
    | refused r => simp [cleanAfter, h, ht]

/-- A faulted state refutes the success of its run. -/
theorem runSucceeds_faulted (s : State) (h : s.fault = true) : s.runSucceeds = false := by
  unfold State.runSucceeds
  cases s.hostMoves <;> simp [cleanAfter, h]

end Sys2Proof.Machine
end

