-- ==== Sys2Proof/Laws/WordForm.lean ====
section
/-! SUPPORT. From a word's fields to the command it issues (spec/30_encoding.md R62, R65). -/

namespace Sys2Proof.Machine

/-- A word with an operation code and its zero fields right issues the command of its operands. -/
theorem issueWord_ok (w : Cmd) (s : State) (op : Opcode) (ho : Opcode.ofByte (fieldOPC w) = some op)
    (hz : zeroFieldsOk op w = true) : issueWord w s = exec (takeOperands op w) s := by
  simp [issueWord, decode, ho, hz]

/-- A word that does not decode raises IllegalCommand. -/
theorem issueWord_illegal (w : Cmd) (s : State) (h : s.fault = false)
    (hd : ∀ i, decode w ≠ .ok i) : issueWord w s = .next (s.raise .illegalCommand w) := by
  unfold issueWord
  cases hw : decode w with
  | ok i => exact absurd hw (hd i)
  | error e => simp [h, State.illegalCommand]

/-- The word form of an operation code, from its zero fields and operands. -/
theorem wordForm_of (op : Opcode) (zeroFields : Cmd → Prop) (command : Cmd → Instr)
    (hz : ∀ w, zeroFields w ↔ zeroFieldsOk op w = true)
    (hc : ∀ w, zeroFields w → takeOperands op w = command w) :
    wordForm op.code zeroFields command := by
  intro w s h hw
  have ho : Opcode.ofByte (fieldOPC w) = some op := by
    rw [hw]; cases op <;> rfl
  refine ⟨fun h1 => ?_, fun h1 => issueWord_illegal w s h fun i hi => ?_⟩
  · rw [issueWord_ok w s op ho ((hz w).1 h1), hc w h1]
  · simp [decode, ho, (hz w).not.1 h1] at hi

end Sys2Proof.Machine
end

