-- ==== Sys2Proof/Tests/Slice0.lean ====
section
/-! SUPPORT. Tests: words and results of spec/95_test_vectors.md, one step each, and for every
statement with hypotheses a state and operands that meet them (the witness_ theorems). -/

namespace Sys2Proof.Tests

open Sys2Proof Sys2Proof.Machine

/-! ### Helpers -/

/-- The state after reset with bytes written from offset 0 on. -/
def withBytes (bs : List Byte) : State := State.reset.writeBytes 0 bs

/-- The state after reset with bits written from index 0 on. -/
def withBits (bs : List Bool) : State := State.reset.writeBits 0 bs

/-- The state after reset with moves for the host to make. -/
def withMoves (ms : List HostMove) : State := { State.reset with hostMoves := ms }

/-- A machine with larger parameters. -/
def large : State := { State.reset with cfg := ⟨1000, 65535⟩ }

/-- A faulted state (P4 of the spec's programs). -/
def faulted : State := State.reset.raise .operandFault 0x000000000000FF03

/-- The outcome is a next state with a property. -/
def nextHas (o : Answer) (p : State → Bool) : Bool :=
  match o with
  | .next t => p t
  | _ => false

/-- The outcome is a fault. -/
def faultsWith (o : Answer) (f : Fault) : Bool :=
  match o with
  | .fault g => g == f
  | _ => false

/-- The outcome is a refusal. -/
def refusedWith (o : Answer) (f : Refusal) : Bool :=
  match o with
  | .refused g => g == f
  | _ => false

/-- The frame F1. -/
def frameF1 : List Byte := [0x01, 0x03, 0x00, 0x00, 0x00, 0x0A, 0xC5, 0xCD]

/-! ### Encoding: words written out from the fields of R61 -/

theorem test_decode_crc16 : decode 0x000000000700FA01 = .ok (.crc16 250 7) := by decide
theorem test_decode_crcstep : decode 0x00000000034C7F02 = .ok (.crcstep 0x4C7F 0x03) := by decide
theorem test_decode_rdu16 : decode 0x0000000000000703 = .ok (.rdu16 7) := by decide
theorem test_decode_wru16 : decode 0x000000FF0000FE04 = .ok (.wru16 254 0xFF00) := by decide
theorem test_decode_pack : decode 0x0007CF0002000005 = .ok (.pack 0 2 1999) := by decide
theorem test_decode_unpack : decode 0x000064000A000306 = .ok (.unpack 3 10 100) := by decide
theorem test_decode_chkcrc : decode 0x0000000000FFFF07 = .ok (.chkcrc 0xFFFF 0) := by decide
theorem test_decode_appcrc : decode 0x000000000300FE08 = .ok (.appcrc 254 3) := by decide
theorem test_decode_zero : decode 0 = .error .reservedOpcode := by decide
theorem test_decode_nine : decode 9 = .error .reservedOpcode := by decide
theorem test_decode_fc : decode 0x0000010000000001 = .error .nonzeroReserved := by decide
theorem test_decode_rsv : decode 0x0100000000000001 = .error .nonzeroReserved := by decide
theorem test_decode_rdu16_fb : decode 0x0000000001000003 = .error .nonzeroReserved := by decide
theorem test_encode_pack : encode (.pack 3 2000 0) = 0x00000007D0000305 := by decide
theorem test_encode_crcstep : encode (.crcstep 0xF7B4 0x00) = 0x0000000000F7B402 := by decide
theorem test_table_word : decodeTableWord 64 0x0000000008000007 = some (.chkcrc 0 8) := by decide

/-! ### WellFormed and assembly (R68, R69): each check refuses -/

theorem smoke_crc16_off : (AsmCmd.crc16 65536 0).wellFormed = false := by decide
theorem smoke_crc16_len : (AsmCmd.crc16 0 65536).wellFormed = false := by decide
theorem smoke_crcstep_crc : (AsmCmd.crcstep 65536 0).wellFormed = false := by decide
theorem smoke_crcstep_byte : (AsmCmd.crcstep 0 256).wellFormed = false := by decide
theorem smoke_rdu16 : (AsmCmd.rdu16 65536).wellFormed = false := by decide
theorem smoke_wru16_off : (AsmCmd.wru16 65536 0).wellFormed = false := by decide
theorem smoke_wru16_value : (AsmCmd.wru16 0 65536).wellFormed = false := by decide
theorem smoke_pack : (AsmCmd.pack 65536 0 0).wellFormed = false ∧
    (AsmCmd.pack 0 65536 0).wellFormed = false ∧
    (AsmCmd.pack 0 0 65536).wellFormed = false := by decide
theorem smoke_unpack : (AsmCmd.unpack 65536 0 0).wellFormed = false ∧
    (AsmCmd.unpack 0 65536 0).wellFormed = false ∧
    (AsmCmd.unpack 0 0 65536).wellFormed = false := by decide
theorem smoke_chkcrc : (AsmCmd.chkcrc 65536 0).wellFormed = false ∧
    (AsmCmd.chkcrc 0 65536).wellFormed = false := by decide
theorem smoke_appcrc : (AsmCmd.appcrc 65536 0).wellFormed = false ∧
    (AsmCmd.appcrc 0 65536).wellFormed = false := by decide
theorem smoke_pseudo : (AsmCmd.chkframe 65536).wellFormed = false ∧
    (AsmCmd.sealframe 65536).wellFormed = false := by decide

theorem test_asm_line :
    assembleLine "UNPACK 3, 10, 100 ; comment".toList = some [0x000064000A000306] := by decide
theorem test_asm_hex :
    assembleLine "WRU16 254, 0xFF00".toList = some [0x000000FF0000FE04] := by decide
theorem test_asm_pseudo : assembleText "CHKFRAME 8\nSEALFRAME 8".toList =
    some [0x0000000008000007, 0x0000000008000008] := by decide
theorem test_asm_too_large : assembleLine "CRCSTEP 0, 256".toList = none := by decide
theorem test_asm_wrong_count : assembleLine "RDU16 1, 2".toList = none := by decide

/-! ### Commands: vectors of the spec -/

/-- C24. -/
theorem test_crc16 : nextHas (exec (.crc16 0 6) (withBytes frameF1))
    (fun t => t.r == 0xCDC5 && t.rWritten && t.ok && t.okWritten) = true := by decide +kernel
/-- C21, C22: the bound holds for an empty range too. -/
theorem test_crc16_bound :
    nextHas (exec (.crc16 256 0) State.reset) (fun t => t.r == 0xFFFF && t.ok) = true ∧
    nextHas (exec (.crc16 257 0) State.reset)
      (fun t => t.fault && t.cause == .operandFault && t.faultWord == 0x0000000000010101 &&
        !t.rWritten && !t.okWritten) = true := by decide
/-- T7, T8. -/
theorem test_crcstep :
    nextHas (exec (.crcstep 0x1234 0x56) State.reset) (fun t => t.r == 0xE993) = true ∧
    nextHas (exec (.crcstep 0xA001 0x00) State.reset) (fun t => t.r == 0xC061) = true := by decide
/-- T5, T10. -/
theorem test_crcstep_high :
    nextHas (exec (.crcstep 0xFFFF 0xFF) State.reset) (fun t => t.r == 0x00FF) = true ∧
    nextHas (exec (.crcstep 0xFFFF 0x80) State.reset) (fun t => t.r == 0xE0BE) = true := by decide
/-- The example of R90, at an odd offset too (R43). -/
theorem test_rdu16 : nextHas (exec (.rdu16 1) (withBytes [0x11, 0x03, 0x00, 0x6B]))
    (fun t => t.r == 0x0300 && t.ok) = true := by decide
/-- U8, U9: the last field, and one byte further. -/
theorem test_rdu16_bound :
    nextHas (exec (.rdu16 254) (State.reset.writeBytes 254 [0xFF, 0x00]))
      (fun t => t.r == 0xFF00) = true ∧
    nextHas (exec (.rdu16 255) State.reset) (fun t => t.fault && !t.rWritten) = true := by decide
/-- U4. -/
theorem test_wru16 : nextHas (exec (.wru16 7 0x1234) State.reset)
    (fun t => t.readBytes 7 2 == [0x12, 0x34] && !t.rWritten && t.ok) = true := by decide
/-- WRU16 255 faults and writes nothing. -/
theorem test_wru16_bound : nextHas (exec (.wru16 255 0x1234) State.reset)
    (fun t => t.fault && t.faultWord == 0x000000123400FF04 && t.b == []) = true := by decide
/-- K7: byte 0 whatever the pad, and the last byte under the two extreme pads. -/
theorem test_pack_padding :
    let s := withBits [true, false, true, true, false, false, true, true, true, false]
    (∀ pad : Byte, s.packedByte 10 0 pad 0 = 0xCD) ∧
    s.packedByte 10 0 0x00 1 = 0x01 ∧ s.packedByte 10 0 0xFF 1 = 0xFD := by decide +kernel
/-- K5, K22. -/
theorem test_pack_whole :
    nextHas (exec (.pack 0 8 0) (withBits [true, false, false, false, false, false, false, true]))
      (fun t => t.readByte 0 == 0x81 && t.r == 1) = true ∧
    nextHas (exec (.pack 0 2 1999) State.reset) (fun t => t.fault && t.b == []) = true := by decide
/-- The example of R99. -/
theorem test_unpack : nextHas (exec (.unpack 3 10 0) (State.reset.writeBytes 3 [0xCD, 0x01]))
    (fun t => (List.range 10).map t.readBit ==
        [true, false, true, true, false, false, true, true, true, false] &&
      t.r == 2 && t.ok) = true := by decide
/-- K24, K25. -/
theorem test_unpack_bound :
    nextHas (exec (.unpack 0 0 2000) State.reset) (fun t => t.r == 0 && t.ok && t.ba == []) = true ∧
    nextHas (exec (.unpack 0 0 2001) State.reset) (fun t => t.fault) = true := by decide
/-- F1, F2. -/
theorem test_chkcrc :
    nextHas (exec (.chkcrc 0 8) (withBytes frameF1)) (fun t => t.r == 0xCDC5 && t.ok) = true ∧
    nextHas (exec (.chkcrc 0 8) (withBytes [0x01, 0x03, 0x00, 0x00, 0x00, 0x0A, 0xCD, 0xC5]))
      (fun t => t.r == 0xCDC5 && !t.ok && t.okWritten && !t.fault) = true := by decide +kernel
/-- F20: the length check comes before the bound. -/
theorem test_chkcrc_short : nextHas (exec (.chkcrc 0xFFFF 0) State.reset)
    (fun t => !t.ok && t.okWritten && !t.rWritten && !t.fault) = true := by decide
/-- F24. -/
theorem test_appcrc : nextHas (exec (.appcrc 0 8) (withBytes [0x01, 0x03, 0x00, 0x00, 0x00, 0x0A]))
    (fun t => t.readBytes 0 8 == frameF1 && t.r == 0xCDC5 && t.ok) = true := by decide +kernel
/-- F22, F23. -/
theorem test_appcrc_bound :
    nextHas (exec (.appcrc 0 2) State.reset) (fun t => !t.ok && t.b == [] && !t.rWritten) = true ∧
    nextHas (exec (.appcrc 254 3) State.reset) (fun t => t.fault && t.b == []) = true := by decide

/-! ### The step, the host's moves and reset -/

/-- P4: after a fault no command has a step. -/
theorem test_faulted_command :
    faultsWith (step { faulted with hostMoves := [.issue 0x0000000000000001] })
      .commandWhileFaulted = true := by decide
theorem test_illegal_word : nextHas (step (withMoves [.issue 0x00000000000000FF]))
    (fun t => t.fault && t.cause.code == 1 && t.faultWord == 0xFF && t.hostMoves == []) = true := by
  decide
theorem test_fetch_word : nextHas (step (State.reset.withFetchWord 64 0x0000000000000001))
    (fun t => t.r == 0xFFFF && t.ok && t.hostMoves == []) = true := by decide
theorem test_read_unwritten :
    nextHas (step (withMoves [.readR])) (fun t => t.hostRead == some .observationFault) = true ∧
    nextHas (step (withMoves [.readOk])) (fun t => t.hostRead == some .observationFault) = true := by
  decide
/-- R127: a word issued in a faulted state has no step, so that no reset abandons it. -/
theorem test_reset_during_faulted :
    faultsWith (step { faulted with hostMoves := [.resetDuring 1] }) .commandWhileFaulted = true := by
  decide
theorem test_host_outside :
    refusedWith (step (withMoves [.writeByte 256 0])) (.hostAccessOutsideB 256) = true ∧
    refusedWith (step (withMoves [.readBit 2000])) (.hostAccessOutsideBA 2000) = true := by decide
theorem test_host_byte : nextHas (hostMove (.readByte 3) (withBytes frameF1))
    (fun t => t.hostRead == some (.byte 0x00)) = true := by decide
theorem test_host_record : nextHas (hostMove .readFault faulted)
    (fun t => t.hostRead == some (.record true .operandFault (some 0x000000000000FF03))) = true := by
  decide
/-- R148: the end is as the last command left it, a reset or a host write after it or not. -/
theorem test_end_of_run :
    nextHas (withMoves [.issue 0, .reset]).endOfRun (fun t => t.fault && t.faultWord == 0) = true ∧
    nextHas (withMoves [.issue 0x0000000103000004, .writeByte 0 5]).endOfRun
      (fun t => t.readByte 0 == 1) = true := by decide
/-- R127: a run that faulted does not succeed, a reset and a further command after it or not. -/
theorem test_run_succeeds :
    (withMoves [.issue 0, .reset]).runSucceeds = false ∧
    (withMoves [.issue 0, .reset, .issue 1]).runSucceeds = false ∧
    (withMoves [.issue 1, .reset, .issue 1]).runSucceeds = true := by decide
theorem test_reset_clears : nextHas (step { faulted with hostMoves := [.reset] })
    (fun t => !t.fault && t.cause == .noFault && t.b == [] && t.epoch == 1) = true := by decide

/-! ### Witnesses: the statements' hypotheses can be met -/

theorem witness_DecodedWordIsItsCommandsWord : decode 0x0000000006000001 = .ok (.crc16 0 6) := by
  decide
theorem witness_WordDecodesToTheRowItMatches :
    ∃ row ∈ opcodeTable, (0x0007CF0001000005 : Cmd) &&& row.mask = row.pattern :=
  ⟨⟨.pack, 0x0000000000000005, 0xFF000000000000FF⟩, by decide, by decide⟩
theorem witness_ReservedOpcodeRaisesIllegalCommand : State.reset.fault = false ∧
    fieldOPC 0x0000000000000100 = 0 ∧ 9 ≤ (fieldOPC 9).toNat ∧ 9 ≤ (fieldOPC 0xFF).toNat := by
  decide
/-- A word for each of the four kinds of field, the byte of CRCSTEP at its boundary. -/
theorem witness_NonzeroReservedFieldRaisesIllegalCommand : State.reset.fault = false ∧
    (fieldOPC 0x0100000000000008 = 8 ∧ fieldRSV 0x0100000000000008 ≠ 0) ∧
    (fieldOPC 0x0000010000000001 = 1 ∧ fieldFC 0x0000010000000001 ≠ 0) ∧
    (fieldOPC 0x0000000001000003 = 3 ∧ fieldFB 0x0000000001000003 ≠ 0) ∧
    (fieldOPC 0x0000000100000002 = 2 ∧ 256 ≤ (fieldFB 0x0000000100000002).toNat) := by decide
theorem witness_EveryWordIsOneCommandOrIllegal : State.reset.fault = false ∧
    decode 0x0000000000000001 = .ok (.crc16 0 0) ∧ decode 0 = .error .reservedOpcode := by decide
theorem witness_AssemblyAcceptsExactlyFittingOperands :
    (AsmCmd.crcstep 0 256).wellFormed = false ∧ (AsmCmd.crcstep 65535 255).wellFormed = true ∧
    (AsmCmd.crc16 0 65536).wellFormed = false := by decide
theorem witness_StepRunsTheDecodedCommand :
    (withMoves [.issue 0x0000000000000001]).hostMoves = .issue 0x0000000000000001 :: [] ∧
    decode 0x0000000000000001 = .ok (.crc16 0 0) ∧ State.reset.hostMoves = [] := by decide
theorem witness_FaultedStateTakesNoCommand : faulted.fault = true ∧
    ∃ t, step { faulted with hostMoves := [.reset] } = .next t ∧ t.fault = false :=
  ⟨rfl, _, rfl, rfl⟩
theorem witness_EveryIssuedCommandCompletes : State.reset.fault = false := rfl
/-- The last frame that fits and the first that does not. -/
theorem witness_OperandFaultExactlyWhenFootprintBreaksABound : State.reset.fault = false ∧
    footprintFits State.reset.cfg (footprint (.appcrc 253 3)) = true ∧
    footprintFits State.reset.cfg (footprint (.appcrc 254 3)) = false ∧
    footprintFits State.reset.cfg (footprint (.pack 0 1 1999)) = true ∧
    footprintFits State.reset.cfg (footprint (.pack 0 2 1999)) = false ∧
    (2 : Half).toNat ≤ 2 := by decide
theorem witness_FaultWritesOnlyMarkAndRecord : State.reset.fault = false ∧
    ∃ t, issueWord 0x000000000000FF03 State.reset = .next t ∧ t.fault = true :=
  ⟨rfl, _, rfl, rfl⟩
theorem witness_FaultRecordIsWrittenOnce :
    (∃ t, issueWord 0 State.reset = .next t ∧ t.fault = true) ∧
    (State.reset.Inv ∧ ∃ t, step State.reset = .next t ∧ t.fault = false) ∧
    (∃ t, step { faulted with hostMoves := [.readFault] } = .next t) :=
  ⟨⟨_, rfl, rfl⟩, ⟨by decide, _, rfl, rfl⟩, ⟨_, rfl⟩⟩
/-- Each of the three failures occurs. -/
theorem witness_StatusFailuresAreExactlyThree :
    nextHas (exec (.chkcrc 0 2) State.reset) (fun t => !t.fault && !t.ok) = true ∧
    nextHas (exec (.chkcrc 0 3) (withBytes [0, 0, 0])) (fun t => !t.fault && !t.ok) = true ∧
    nextHas (exec (.appcrc 0 2) State.reset) (fun t => !t.fault && !t.ok) = true ∧
    nextHas (exec (.chkcrc 0 3) (withBytes [0x00, 0xBF, 0x40]))
      (fun t => !t.fault && t.ok) = true := by decide
/-- A word for each of the five outcomes. -/
theorem witness_ChecksRunInOrder : State.reset.fault = false ∧
    Opcode.ofByte (fieldOPC 9) = none ∧
    (Opcode.ofByte (fieldOPC 0x0100000002FFFF07) = some .chkcrc ∧
      zeroFieldsOk .chkcrc 0x0100000002FFFF07 = false) ∧
    (zeroFieldsOk .chkcrc 0x0000000002FFFF07 = true ∧
      (fieldFB 0x0000000002FFFF07).toNat ≤ 2) ∧
    (zeroFieldsOk .rdu16 0x000000000000FF03 = true ∧
      footprintFits State.reset.cfg (footprint (takeOperands .rdu16 0x000000000000FF03)) = false) ∧
    (zeroFieldsOk .rdu16 0x000000000000FE03 = true ∧
      footprintFits State.reset.cfg (footprint (takeOperands .rdu16 0x000000000000FE03)) = true) := by
  decide
theorem witness_Crc16ComputesTheCrcOfARange : State.reset.fault = false ∧
    (250 : Half).toNat + (6 : Half).toNat ≤ State.reset.cfg.bufLen ∧
    State.reset.cfg.bufLen < (250 : Half).toNat + (7 : Half).toNat ∧
    (fieldOPC 0x0000000006000001 = 0x01 ∧ fieldRSV 0x0000000006000001 = 0 ∧
      fieldFC 0x0000000006000001 = 0) ∧
    fieldFC 0x0000010000000001 ≠ 0 := by decide
theorem witness_CrcstepUpdatesTheAccumulator : State.reset.fault = false ∧
    (fieldOPC 0x00000000FFFFFF02 = 0x02 ∧ fieldRSV 0x00000000FFFFFF02 = 0 ∧
      fieldFC 0x00000000FFFFFF02 = 0 ∧ (fieldFB 0x00000000FFFFFF02).toNat < 256) ∧
    ¬ (fieldFB 0x0000000100000002).toNat < 256 := by decide
theorem witness_Rdu16ReadsHighByteFirst : State.reset.fault = false ∧
    (254 : Half).toNat + 2 ≤ State.reset.cfg.bufLen ∧
    State.reset.cfg.bufLen < (255 : Half).toNat + 2 ∧
    (fieldOPC 0x000000000000FE03 = 0x03 ∧ fieldRSV 0x000000000000FE03 = 0 ∧
      fieldFC 0x000000000000FE03 = 0 ∧ fieldFB 0x000000000000FE03 = 0) ∧
    fieldFB 0x0000000001000003 ≠ 0 := by decide
theorem witness_Wru16WritesHighByteFirst : State.reset.fault = false ∧
    (254 : Half).toNat + 2 ≤ State.reset.cfg.bufLen ∧
    State.reset.cfg.bufLen < (255 : Half).toNat + 2 ∧
    (fieldOPC 0x000000FF0000FE04 = 0x04 ∧ fieldRSV 0x000000FF0000FE04 = 0 ∧
      fieldFC 0x000000FF0000FE04 = 0) ∧
    fieldFC 0x0000010000000004 ≠ 0 := by decide
/-- Bits at the end of BA, with padding, and both bounds broken by one. -/
theorem witness_PackPacksTheBits : State.reset.fault = false ∧
    ((255 : Half).toNat + ceil8 (1 : Half).toNat ≤ State.reset.cfg.bufLen ∧
      (1999 : Half).toNat + (1 : Half).toNat ≤ State.reset.cfg.bitLen) ∧
    ((1 : Half).toNat ≤ 7 ∧ 7 < 8 * ceil8 (1 : Half).toNat) ∧
    State.reset.cfg.bufLen < (255 : Half).toNat + ceil8 (9 : Half).toNat ∧
    State.reset.cfg.bitLen < (1999 : Half).toNat + (2 : Half).toNat ∧
    fieldRSV 0x0007CF0001000005 = 0 ∧ fieldRSV 0x0100000000000005 ≠ 0 := by decide
theorem witness_UnpackUnpacksTheBits : State.reset.fault = false ∧
    ((248 : Half).toNat + ceil8 (64 : Half).toNat ≤ State.reset.cfg.bufLen ∧
      (1936 : Half).toNat + (64 : Half).toNat ≤ State.reset.cfg.bitLen) ∧
    State.reset.cfg.bufLen < (248 : Half).toNat + ceil8 (65 : Half).toNat ∧
    State.reset.cfg.bitLen < (2001 : Half).toNat + (0 : Half).toNat ∧
    fieldRSV 0x0007D00000000006 = 0 ∧ fieldRSV 0x0100000000000006 ≠ 0 := by decide
/-- The shortest and the longest frame, a short length and a frame too long by one. -/
theorem witness_ChkcrcChecksTheTrailer : State.reset.fault = false ∧
    (2 < (3 : Half).toNat ∧ (253 : Half).toNat + (3 : Half).toNat ≤ State.reset.cfg.bufLen) ∧
    (0 : Half).toNat + (256 : Half).toNat ≤ State.reset.cfg.bufLen ∧
    (2 : Half).toNat ≤ 2 ∧
    State.reset.cfg.bufLen < (250 : Half).toNat + (7 : Half).toNat ∧
    (fieldOPC 0x0000000008000007 = 0x07 ∧ fieldRSV 0x0000000008000007 = 0 ∧
      fieldFC 0x0000000008000007 = 0) ∧
    fieldFC 0x0000010000000007 ≠ 0 := by decide
theorem witness_AppcrcWritesTheTrailer : State.reset.fault = false ∧
    (2 < (3 : Half).toNat ∧ (253 : Half).toNat + (3 : Half).toNat ≤ State.reset.cfg.bufLen) ∧
    (0 : Half).toNat + (256 : Half).toNat ≤ State.reset.cfg.bufLen ∧
    (2 : Half).toNat ≤ 2 ∧
    State.reset.cfg.bufLen < (254 : Half).toNat + (3 : Half).toNat ∧
    (fieldOPC 0x0000000100000008 = 0x08 ∧ fieldRSV 0x0000000100000008 = 0 ∧
      fieldFC 0x0000000100000008 = 0) ∧
    fieldFC 0x0000010000000008 ≠ 0 := by decide
/-- APPCRC changes its trailer and no byte beside it. -/
theorem witness_CommandWritesOnlyItsFootprint :
    (∃ t, exec (.appcrc 0 8) (withBytes frameF1) = .next t ∧ t.fault = false) ∧
    spanHolds (footprint (.appcrc 0 8)).bWrites 5 = false ∧
    spanHolds (footprint (.appcrc 0 8)).bWrites 6 = true ∧
    spanHolds (footprint (.unpack 0 8 4)).baWrites 3 = false := by
  exact ⟨⟨_, rfl, rfl⟩, by decide, by decide, by decide⟩
/-- Two states that differ in R, the pad counter and a byte outside the read footprint. -/
theorem witness_CommandDependsOnlyOnWhatItReads :
    ∃ s s' t : State, s ≠ s' ∧ s.fault = false ∧ s'.fault = false ∧ s'.cfg = s.cfg ∧
      s'.padDraws ≠ s.padDraws ∧
      ((∃ off n bbase, (Instr.crc16 0 6) = .pack off n bbase) → s'.padDraws = s.padDraws) ∧
      (∀ a, spanHolds (footprint (.crc16 0 6)).bReads a = true → s'.readByte a = s.readByte a) ∧
      (∀ j, spanHolds (footprint (.crc16 0 6)).baReads j = true → s'.readBit j = s.readBit j) ∧
      exec (.crc16 0 6) s = .next t := by
  refine ⟨withBytes frameF1, ((withBytes frameF1).setR 7).tickPad.writeByte 6 0, _, by decide, rfl, rfl,
    rfl, by decide, fun h => by simp at h, fun a ha => ?_, fun _ _ => rfl, rfl⟩
  have h6 : a ≠ 6 := by
    simp only [footprint, spanHolds, Bool.and_eq_true, decide_eq_true_eq] at ha
    have : (6 : Half).toNat = 6 := rfl
    have : (0 : Half).toNat = 0 := rfl
    omega
  exact State.readByte_writeByte_other _ _ _ _ h6
/-- PACK, with padding, from two states that differ in R and B. -/
theorem witness_CommandDependsOnlyOnWhatItReads_pack :
    ∃ s s' t : State, s ≠ s' ∧ s.fault = false ∧ s'.fault = false ∧ s'.cfg = s.cfg ∧
      s'.padDraws = s.padDraws ∧
      (∀ j, s'.readBit j = s.readBit j) ∧ exec (.pack 0 10 0) s = .next t :=
  ⟨State.reset, (State.reset.setR 7).writeByte 0 1, _, by decide, rfl, rfl, rfl, rfl, fun _ => rfl,
    rfl⟩
theorem witness_ReadAndWriteFootprintsAreDisjoint :
    spanHolds (footprint (.appcrc 0 8)).bReads 5 = true ∧
    spanHolds (footprint (.pack 0 8 4)).baReads 4 = true := by decide
/-- Two states with different pad counters. -/
theorem witness_PackOfWholeBytesIsDetermined : State.reset.fault = false ∧
    State.reset.tickPad.fault = false ∧ State.reset.tickPad.cfg = State.reset.cfg ∧
    (2000 : Half).toNat % 8 = 0 ∧
    (3 : Half).toNat + ceil8 (2000 : Half).toNat ≤ State.reset.cfg.bufLen ∧
    (0 : Half).toNat + (2000 : Half).toNat ≤ State.reset.cfg.bitLen ∧
    ∀ i, State.reset.tickPad.readBit i = State.reset.readBit i := by
  exact ⟨rfl, rfl, rfl, by decide, by decide, by decide, fun _ => rfl⟩
theorem witness_CrcstepChainEqualsCrc16 : (withBytes frameF1).fault = false ∧
    (0 : Half).toNat + (6 : Half).toNat ≤ (withBytes frameF1).cfg.bufLen ∧
    0 < (6 : Half).toNat := by decide
theorem witness_FieldWriteAndReadAgree : State.reset.fault = false ∧
    (254 : Half).toNat + 2 ≤ State.reset.cfg.bufLen := by decide
/-- Overlapping ranges of BA, and padding. -/
theorem witness_PackThenUnpackGivesTheBitsBack : State.reset.fault = false ∧
    (254 : Half).toNat + ceil8 (10 : Half).toNat ≤ State.reset.cfg.bufLen ∧
    (0 : Half).toNat + (10 : Half).toNat ≤ State.reset.cfg.bitLen ∧
    (5 : Half).toNat + (10 : Half).toNat ≤ State.reset.cfg.bitLen := by decide
/-- K7 with both extreme paddings. -/
theorem witness_UnpackIgnoresPadding :
    ∃ s s' : State, s.readByte 1 ≠ s'.readByte 1 ∧ s.fault = false ∧ s'.fault = false ∧
      s'.cfg = s.cfg ∧
      (0 : Half).toNat + ceil8 (10 : Half).toNat ≤ s.cfg.bufLen ∧
      (0 : Half).toNat + (10 : Half).toNat ≤ s.cfg.bitLen ∧
      (∀ j < 1, s'.readByte ((0 : Half).toNat + j) = s.readByte ((0 : Half).toNat + j)) ∧
      ceil8 (10 : Half).toNat = 2 ∧ ((10 : Half).toNat - 1) % 8 = 1 ∧
      (∀ k < 2, (s'.readByte ((0 : Half).toNat + 1)).getLsbD k =
        (s.readByte ((0 : Half).toNat + 1)).getLsbD k) :=
  ⟨withBytes [0xCD, 0x01], withBytes [0xCD, 0xFD], by decide, rfl, rfl, rfl, by decide, by decide,
    by decide, by decide, by decide, by decide⟩
theorem witness_TrailerReadsByteSwapped : (withBytes frameF1).fault = false ∧
    2 < (8 : Half).toNat ∧ (0 : Half).toNat + (8 : Half).toNat ≤ (withBytes frameF1).cfg.bufLen ∧
    (6 : Half).toNat = (0 : Half).toNat + (8 : Half).toNat - 2 := by decide
/-- The frame F1, and a frame of the whole buffer to seal. -/
theorem witness_Crc16OfAValidFrameIsZero :
    ((withBytes frameF1).fault = false ∧
      (0 : Half).toNat + (8 : Half).toNat ≤ (withBytes frameF1).cfg.bufLen ∧
      (withBytes frameF1).frameValid (0 : Half).toNat (8 : Half).toNat = true) ∧
    State.reset.fault = false ∧ 2 < (256 : Half).toNat ∧
    (0 : Half).toNat + (256 : Half).toNat ≤ State.reset.cfg.bufLen := by decide +kernel
theorem witness_SealedFrameChecks : State.reset.fault = false ∧
    2 < (3 : Half).toNat ∧ (253 : Half).toNat + (3 : Half).toNat ≤ State.reset.cfg.bufLen ∧
    (2 : Half).toNat ≤ 2 := by decide
/-- Both alternatives, with len at 2 and at 3; the offset of the short frame lies outside B. -/
theorem witness_ChkcrcAcceptsExactlyValidFrames : State.reset.fault = false ∧
    (2 : Half).toNat ≤ 2 ∧
    (253 : Half).toNat + (3 : Half).toNat ≤ State.reset.cfg.bufLen := by decide
theorem witness_FrameCommandsHaveNoOtherLengthLimit : large.fault = false ∧
    256 < (257 : Half).toNat ∧
    (743 : Half).toNat + (257 : Half).toNat ≤ large.cfg.bufLen := by decide
/-- The frame F1 and its last bit. -/
theorem witness_SingleBitErrorIsDetected : (withBytes frameF1).fault = false ∧
    2 < (8 : Half).toNat ∧ (0 : Half).toNat + (8 : Half).toNat ≤ (withBytes frameF1).cfg.bufLen ∧
    (withBytes frameF1).frameValid (0 : Half).toNat (8 : Half).toNat = true ∧
    (0 : Half).toNat ≤ 7 ∧ 7 < (0 : Half).toNat + (8 : Half).toNat ∧ 7 < 8 := by decide +kernel
theorem witness_ResetLeavesDrawsAndClearMarks :
    (withMoves [.reset]).hostMoves = .reset :: [] ∧
    ((withMoves [.resetDuring 1]).hostMoves = .resetDuring 1 :: [] ∧
      (withMoves [.resetDuring 1]).fault = false) := by decide
theorem witness_UnwrittenResultCannotBeRead :
    State.reset.rWritten = false ∧ State.reset.okWritten = false := by decide
/-- The last locations, the first beyond, a written R and OK, and a record. -/
theorem witness_HostAccessesActAsTheTableSays :
    255 < State.reset.cfg.bufLen ∧ State.reset.cfg.bufLen ≤ 256 ∧
    1999 < State.reset.cfg.bitLen ∧ State.reset.cfg.bitLen ≤ 2000 ∧
    (State.reset.setR 5).rWritten = true ∧ (State.reset.setOk false).okWritten = true ∧
    faulted.cause ≠ .noFault := by decide
theorem witness_WrittenMarksStayUntilReset :
    HostMove.readFault.resets = false ∧
    ∃ t, step { (State.reset.setR 5).setOk true with hostMoves := [.readFault] } = .next t ∧
      t.rWritten = true ∧ t.okWritten = true :=
  ⟨rfl, _, rfl, rfl, rfl⟩
theorem witness_StepKeepsTheInvariant :
    (withMoves [.issue 0x0000000103000004]).Inv ∧
    ∃ t, step (withMoves [.issue 0x0000000103000004]) = .next t ∧ t.b ≠ [] :=
  ⟨by decide, _, rfl, by decide⟩
theorem witness_StepKeepsTheParameters : ∃ t, step (withMoves [.reset]) = .next t := ⟨_, rfl⟩
/-- A fault, and a reset after the last command. -/
theorem witness_RunEndsAsTheLastCommandLeftIt :
    (withMoves [.issue 0, .reset]).hostMoves = .issue 0 :: [.reset] ∧
    noCommand [.reset] = true ∧ (withMoves [.issue 1, .writeByte 0 5]).runSucceeds = true := by
  decide
theorem witness_SuccessfulRunNeverFaulted :
    (∀ m ∈ (withMoves [.issue 1, .readOk]).hostMoves, m.resets = false) ∧
    ∃ t : State, Host.Core.run Sys2Proof.core 2 (withMoves [.issue 1, .readOk]) = .next t ∧
      t.fault = false :=
  ⟨by decide, _, rfl, rfl⟩

end Sys2Proof.Tests
end

namespace Sys2Proof.Machine

/-! ### What a move of the host leaves

One inversion of a move and of a step: an invariant is a case analysis over `State.Leaves`. -/

/-- What a move of the host can leave of a state, with the guard under which it does (R44, R120,
R121, R127, R140, R146). -/
inductive State.Leaves (s : State) : State → Prop
  /-- A command completes. -/
  | effect (i : Instr) (clear : s.fault = false)
      (fits : footprintFits s.cfg (footprint i) = true) : Leaves s (effect i s)
  /-- A command or a word that is no command takes a fault. -/
  | raise (c : Cause) (w : Cmd) (clear : s.fault = false) (cause : c ≠ .noFault) :
      Leaves s (s.raise c w)
  /-- The host reads. -/
  | returns (d : HostData) : Leaves s (s.returns d)
  /-- The host writes a byte inside B. -/
  | writeByte (a : Nat) (v : Byte) (inside : a < s.cfg.bufLen) : Leaves s (s.writeByte a v)
  /-- The host writes a bit inside BA. -/
  | writeBit (i : Nat) (v : Bool) (inside : i < s.cfg.bitLen) : Leaves s (s.writeBit i v)
  /-- The host applies reset, between commands or during one. -/
  | applyReset : Leaves s s.applyReset

theorem issueWord_leaves {w : Cmd} {s t : State} (h : issueWord w s = .next t) : s.Leaves t := by
  rcases (issueWord_next w s t).1 h with ⟨i, -, hi⟩ | ⟨_, -, clear, rfl⟩
  · obtain ⟨clear, ⟨fits, rfl⟩ | ⟨-, rfl⟩⟩ := (exec_next i s t).1 hi
    · exact .effect i clear fits
    · exact .raise _ _ clear (by decide)
  · exact .raise _ _ clear (by decide)

theorem hostMove_leaves {m : HostMove} {s t : State} (h : hostMove m s = .next t) :
    s.Leaves t := by
  by_cases hm : m ≠ .reset ∧ ∀ w, m ≠ .resetDuring w
  · rcases hostMove_next m s t hm h with
      ⟨w, -, hw⟩ | ⟨d, rfl⟩ | ⟨a, v, inside, rfl⟩ | ⟨i, v, inside, rfl⟩
    · exact issueWord_leaves hw
    · exact .returns d
    · exact .writeByte a v inside
    · exact .writeBit i v inside
  · have reset : t = s.applyReset := by
      cases m with
      | reset => exact (hostMove_reset_next s t).1 h
      | resetDuring w => exact ((hostMove_resetDuring_next w s t).1 h).2
      | _ => simp at hm
    exact reset ▸ .applyReset

/-- A step stays where it is, or its move acts on the state with that move taken. -/
theorem step_leaves {s t : State} (h : step s = .next t) :
    t = s ∨ ∃ rest, State.Leaves { s with hostMoves := rest } t := by
  cases hmoves : s.hostMoves with
  | nil => rw [step_nil s hmoves] at h; exact .inl ((next_eq_next s t).1 h)
  | cons m rest => rw [step_cons s m rest hmoves] at h; exact .inr ⟨rest, hostMove_leaves h⟩

/-! ### The parameters (R6) -/

theorem State.Leaves.cfg_eq {s t : State} (h : s.Leaves t) : t.cfg = s.cfg := by
  cases h with
  | effect i _ _ => exact effect_cfg i s
  | _ => rfl

/-- Settles O51: no state a move can leave has other parameters. -/
theorem stepKeepsTheParameters : Obligations.StepKeepsTheParameters := by
  intro s t h
  obtain rfl | ⟨rest, hleaves⟩ := step_leaves h
  · rfl
  · exact hleaves.cfg_eq

/-! ### The invariant under the operations on the state -/

namespace State
variable {s : State}

theorem inv_takeMoves (rest : List HostMove) (h : s.Inv) :
    State.Inv { s with hostMoves := rest } := h

theorem inv_returns (d : HostData) (h : s.Inv) : (s.returns d).Inv := h

theorem inv_tickPad (h : s.Inv) : s.tickPad.Inv := h

theorem inv_setOk (v : Bool) (h : s.Inv) : (s.setOk v).Inv := by
  obtain ⟨hcfg, hb, hbBelow, hba, hbaBelow, hcause, -⟩ := h
  exact ⟨hcfg, hb, hbBelow, hba, hbaBelow, hcause, fun _ => rfl⟩

/-- R alone may be marked written before OK; with OK written after it the marks agree again (R24,
R26). -/
theorem inv_setR_setOk (r : Half) (v : Bool) (h : s.Inv) : ((s.setR r).setOk v).Inv := by
  obtain ⟨hcfg, hb, hbBelow, hba, hbaBelow, hcause, -⟩ := h
  exact ⟨hcfg, hb, hbBelow, hba, hbaBelow, hcause, fun _ => rfl⟩

theorem inv_raise {c : Cause} (w : Cmd) (hc : c ≠ .noFault) (h : s.Inv) : (s.raise c w).Inv := by
  obtain ⟨hcfg, hb, hbBelow, hba, hbaBelow, -, hmarks⟩ := h
  exact ⟨hcfg, hb, hbBelow, hba, hbaBelow, by simp [hc], hmarks⟩

theorem inv_applyReset (h : s.Inv) : s.applyReset.Inv := by
  obtain ⟨hcfg, -⟩ := h
  exact ⟨hcfg, rfl, rfl, rfl, rfl, by simp, by simp⟩

theorem inv_writeByte {a : Nat} (v : Byte) (ha : a < s.cfg.bufLen) (h : s.Inv) :
    (s.writeByte a v).Inv := by
  obtain ⟨hcfg, hb, hbBelow, hrest⟩ := h
  exact ⟨hcfg, wf_writeByte s a v hb, below_writeByte s _ a v hbBelow ha, hrest⟩

theorem inv_writeBit {i : Nat} (v : Bool) (hi : i < s.cfg.bitLen) (h : s.Inv) :
    (s.writeBit i v).Inv := by
  obtain ⟨hcfg, hb, hbBelow, hba, hbaBelow, hrest⟩ := h
  exact ⟨hcfg, hb, hbBelow, wf_writeBit s i v hba, below_writeBit s _ i v hbaBelow hi, hrest⟩

theorem inv_writeBytes {a : Nat} (vs : List Byte) (ha : a + vs.length ≤ s.cfg.bufLen)
    (h : s.Inv) : (s.writeBytes a vs).Inv := by
  rw [writeBytes_eq]
  obtain ⟨hcfg, hb, hbBelow, hrest⟩ := h
  exact ⟨hcfg, wf_writeBytes s a vs hb, below_writeBytes s _ a vs hbBelow ha, hrest⟩

theorem inv_writeBits {i : Nat} (vs : List Bool) (hi : i + vs.length ≤ s.cfg.bitLen)
    (h : s.Inv) : (s.writeBits i vs).Inv := by
  rw [writeBits_eq]
  obtain ⟨hcfg, hb, hbBelow, hba, hbaBelow, hrest⟩ := h
  exact ⟨hcfg, hb, hbBelow, wf_writeBits s i vs hba, below_writeBits s _ i vs hbaBelow hi, hrest⟩

theorem inv_writeField {o : Nat} (v : Half) (ho : o + 2 ≤ s.cfg.bufLen) (h : s.Inv) :
    (s.writeField o v).Inv :=
  inv_writeBytes [hiByte v, loByte v] ho h

theorem inv_writeTrailer {o : Nat} (c : Half) (ho : o + 2 ≤ s.cfg.bufLen) (h : s.Inv) :
    (s.writeTrailer o c).Inv :=
  inv_writeBytes [loByte c, hiByte c] ho h

end State

/-! ### The invariant under commands and moves -/

/-- What a footprint inside B and BA says of the two writes (R44). -/
theorem footprintFits_writes {c : Config} {f : Footprint} (h : footprintFits c f = true) :
    spanFits f.bWrites c.bufLen = true ∧ spanFits f.baWrites c.bitLen = true := by
  simp only [footprintFits, Bool.and_eq_true] at h
  obtain ⟨⟨⟨-, hb⟩, -⟩, hba⟩ := h
  exact ⟨hb, hba⟩

/-- A command whose footprint fits writes inside B and BA only, and R never without OK. -/
theorem inv_effect {s : State} (i : Instr) (fits : footprintFits s.cfg (footprint i) = true)
    (h : s.Inv) : (effect i s).Inv := by
  obtain ⟨hb, hba⟩ := footprintFits_writes fits
  cases i with
  | crc16 off len => exact State.inv_setR_setOk _ _ h
  | crcstep crc byte => exact State.inv_setR_setOk _ _ h
  | rdu16 off => exact State.inv_setR_setOk _ _ h
  | wru16 off value =>
    exact State.inv_setOk _ (State.inv_writeField value (of_decide_eq_true hb) h)
  | pack off n bbase =>
    have inside : off.toNat + ceil8 n.toNat ≤ s.cfg.bufLen := of_decide_eq_true hb
    exact State.inv_setR_setOk _ _ (State.inv_tickPad
      (State.inv_writeBytes _ (by simpa using inside) h))
  | unpack off n bbase =>
    have inside : bbase.toNat + n.toNat ≤ s.cfg.bitLen := of_decide_eq_true hba
    exact State.inv_setR_setOk _ _ (State.inv_writeBits _ (by simpa using inside) h)
  | chkcrc off len =>
    simp only [effect]
    split_ifs
    · exact State.inv_setOk _ h
    · exact State.inv_setR_setOk _ _ h
  | appcrc off len =>
    simp only [effect]
    split_ifs with short
    · exact State.inv_setOk _ h
    · have inside : off.toNat + len.toNat - 2 + 2 ≤ s.cfg.bufLen := by
        simpa [footprint, short, spanFits] using hb
      exact State.inv_setR_setOk _ _ (State.inv_writeTrailer _ inside h)

theorem State.Leaves.inv {s t : State} (hleaves : s.Leaves t) (h : s.Inv) : t.Inv := by
  cases hleaves with
  | effect i _ fits => exact inv_effect i fits h
  | raise c w _ cause => exact inv_raise w cause h
  | returns d => exact inv_returns d h
  | writeByte a v inside => exact inv_writeByte v inside h
  | writeBit i v inside => exact inv_writeBit v inside h
  | applyReset => exact inv_applyReset h

/-- Settles O50: each state a move can leave meets the invariant, and taking the move from the
host's list does not touch it. -/
theorem stepKeepsTheInvariant : Obligations.StepKeepsTheInvariant := by
  intro s t h hstep
  obtain rfl | ⟨rest, hleaves⟩ := step_leaves hstep
  · exact h
  · exact hleaves.inv (State.inv_takeMoves rest h)

end Sys2Proof.Machine

namespace Sys2Proof.Machine

/-! ### Reads and written marks of R and OK (R24, R25, R26) -/

/-- Settles O46: what the host sees of R or OK while its mark is clear is that the read faulted. -/
theorem unwrittenResultCannotBeRead : Obligations.UnwrittenResultCannotBeRead := by
  refine ⟨fun s h => ?_, fun s h => ?_⟩
  · rw [hostMove_readR_next, observedR_unwritten s h]
  · rw [hostMove_readOk_next, observedOk_unwritten s h]

/-- Every written mark that is set stays set. -/
abbrev keepsMarks (s t : State) : Prop :=
  (s.rWritten = true → t.rWritten = true) ∧ (s.okWritten = true → t.okWritten = true)

theorem issueWord_keepsMarks {w : Cmd} {s t : State} (h : issueWord w s = .next t) :
    keepsMarks s t := by
  rcases (issueWord_next w s t).1 h with ⟨i, -, hi⟩ | ⟨_, -, -, rfl⟩
  · obtain ⟨-, ⟨-, rfl⟩ | ⟨-, rfl⟩⟩ := (exec_next i s t).1 hi
    · exact ⟨effect_rWritten i s, fun _ => effect_okWritten i s⟩
    · exact ⟨id, id⟩
  · exact ⟨id, id⟩

theorem hostMove_keepsMarks {m : HostMove} {s t : State} (hm : m.resets = false)
    (h : hostMove m s = .next t) : keepsMarks s t := by
  have noReset : m ≠ .reset ∧ ∀ w, m ≠ .resetDuring w := by
    constructor
    · rintro rfl; cases hm
    · rintro w rfl; cases hm
  rcases hostMove_next m s t noReset h with ⟨w, -, hw⟩ | ⟨d, rfl⟩ | ⟨a, v, -, rfl⟩ | ⟨i, v, -, rfl⟩
  · exact issueWord_keepsMarks hw
  · exact ⟨id, id⟩
  · exact ⟨id, id⟩
  · exact ⟨id, id⟩

/-- Settles O48: a command sets marks and clears none, and the host's other moves touch none. -/
theorem writtenMarksStayUntilReset : Obligations.WrittenMarksStayUntilReset := by
  intro s t m rest hmoves hm h
  rw [step_cons s m rest hmoves] at h
  have kept : keepsMarks { s with hostMoves := rest } t := hostMove_keepsMarks hm h
  exact kept

/-! ### What a command writes

A command computes its output from what it reads, then writes it. Its frame is where the output
goes; its dependence on the state is that of the output alone. -/

/-- What a command writes: bytes of B from an address on, bits of BA from an index on, R where it
writes R, and OK. -/
structure Output where
  byteAt : Nat := 0
  bytes : List Byte := []
  bitAt : Nat := 0
  bits : List Bool := []
  r : Option Half := none
  ok : Bool := true

/-- The output of a command whose footprint fits. -/
def output (i : Instr) (s : State) : Output :=
  match i with
  | .crc16 off len => { r := some (crc16 (s.readBytes off.toNat len.toNat)) }
  | .crcstep crc byte => { r := some (crc16Step crc byte) }
  | .rdu16 off => { r := some (s.readField off.toNat) }
  | .wru16 off value => { byteAt := off.toNat, bytes := [hiByte value, loByte value] }
  | .pack off n bbase =>
    { byteAt := off.toNat
      bytes := s.packedBytes n.toNat bbase.toNat (s.pad off n bbase)
      r := some (BitVec.ofNat 16 (ceil8 n.toNat)) }
  | .unpack off n bbase =>
    { bitAt := bbase.toNat
      bits := s.bitmapBits off.toNat n.toNat
      r := some (BitVec.ofNat 16 (ceil8 n.toNat)) }
  | .chkcrc off len =>
    if len.toNat ≤ 2 then { ok := false }
    else
      { r := some (s.payloadCrc off.toNat len.toNat)
        ok := s.trailerMatches off.toNat len.toNat (s.payloadCrc off.toNat len.toNat) }
  | .appcrc off len =>
    if len.toNat ≤ 2 then { ok := false }
    else
      { byteAt := off.toNat + len.toNat - 2
        bytes := [loByte (s.payloadCrc off.toNat len.toNat),
          hiByte (s.payloadCrc off.toNat len.toNat)]
        r := some (s.payloadCrc off.toNat len.toNat) }

/-- R is written where there is a value for it. -/
def State.putR (s : State) : Option Half → State
  | none => s
  | some v => s.setR v

/-- Writes an output. -/
def State.put (s : State) (o : Output) : State :=
  (((s.writeBytes o.byteAt o.bytes).writeBits o.bitAt o.bits).putR o.r).setOk o.ok

/-- The effect of a command is its output written, and PACK's draw used up. -/
theorem effect_eq_put (i : Instr) (s : State) :
    effect i s = { s.put (output i s) with padDraws := (effect i s).padDraws } := by
  cases i with
  | crc16 off len => rfl
  | crcstep crc byte => rfl
  | rdu16 off => rfl
  | wru16 off value => rfl
  | pack off n bbase => rfl
  | unpack off n bbase => rfl
  | chkcrc off len => simp only [effect, output]; split_ifs <;> rfl
  | appcrc off len => simp only [effect, output]; split_ifs <;> rfl

namespace State
variable (s : State) (o : Output)

@[simp] theorem readByte_putR (v : Option Half) (a : Nat) :
    (s.putR v).readByte a = s.readByte a := by cases v <;> rfl

@[simp] theorem readBit_putR (v : Option Half) (j : Nat) :
    (s.putR v).readBit j = s.readBit j := by cases v <;> rfl

theorem readByte_put (a : Nat) :
    (s.put o).readByte a = (s.writeBytes o.byteAt o.bytes).readByte a := by simp [put]

theorem readBit_put (j : Nat) :
    (s.put o).readBit j = (s.writeBits o.bitAt o.bits).readBit j := by
  simp [put, readBit_writeBits]

theorem put_ok : (s.put o).ok = o.ok := rfl

theorem put_sameR (h : o.r = none) : sameR s (s.put o) := by
  unfold put
  rw [h, writeBytes_eq, writeBits_eq]
  exact ⟨rfl, rfl⟩

theorem put_holdsR {v : Half} (h : o.r = some v) : holdsR (s.put o) v := by
  unfold put
  rw [h]
  exact ⟨rfl, rfl⟩

end State

/-! ### The output goes to the write footprint (R45) -/

theorem spanHolds_bWrites (i : Instr) (s : State) (a : Nat) :
    spanHolds (footprint i).bWrites a = true ↔
      (output i s).byteAt ≤ a ∧ a < (output i s).byteAt + (output i s).bytes.length := by
  cases i with
  | chkcrc off len =>
    by_cases short : len.toNat ≤ 2 <;> simp [footprint, output, spanHolds, short]
  | appcrc off len =>
    by_cases short : len.toNat ≤ 2 <;> simp [footprint, output, spanHolds, short]
  | _ => simp [footprint, output, spanHolds]

theorem spanHolds_baWrites (i : Instr) (s : State) (j : Nat) :
    spanHolds (footprint i).baWrites j = true ↔
      (output i s).bitAt ≤ j ∧ j < (output i s).bitAt + (output i s).bits.length := by
  cases i with
  | chkcrc off len =>
    by_cases short : len.toNat ≤ 2 <;> simp [footprint, output, spanHolds, short]
  | appcrc off len =>
    by_cases short : len.toNat ≤ 2 <;> simp [footprint, output, spanHolds, short]
  | _ => simp [footprint, output, spanHolds]

/-- After a command a byte of its write footprint is the output's, and any other is as before. -/
theorem readByte_effect (i : Instr) (s : State) (a : Nat) :
    (effect i s).readByte a =
      if spanHolds (footprint i).bWrites a = true then
        ((output i s).bytes[a - (output i s).byteAt]?).getD 0
      else s.readByte a := by
  calc (effect i s).readByte a
    _ = (s.put (output i s)).readByte a := by rw [effect_eq_put]; rfl
    _ = _ := by simp only [State.readByte_put, State.readByte_writeBytes, spanHolds_bWrites i s]

/-- After a command a bit of its write footprint is the output's, and any other is as before. -/
theorem readBit_effect (i : Instr) (s : State) (j : Nat) :
    (effect i s).readBit j =
      if spanHolds (footprint i).baWrites j = true then
        ((output i s).bits[j - (output i s).bitAt]?).getD false
      else s.readBit j := by
  calc (effect i s).readBit j
    _ = (s.put (output i s)).readBit j := by rw [effect_eq_put]; rfl
    _ = _ := by simp only [State.readBit_put, State.readBit_writeBits, spanHolds_baWrites i s]

theorem effect_ok (i : Instr) (s : State) : (effect i s).ok = (output i s).ok := by
  rw [effect_eq_put]; rfl

theorem effect_sameR (i : Instr) (s : State) (h : (output i s).r = none) :
    sameR s (effect i s) := by
  rw [effect_eq_put]; exact s.put_sameR _ h

theorem effect_holdsR (i : Instr) (s : State) {v : Half} (h : (output i s).r = some v) :
    holdsR (effect i s) v := by
  rw [effect_eq_put]; exact s.put_holdsR _ h

theorem effect_sameSetting (i : Instr) (s : State) : sameSetting s (effect i s) :=
  ⟨effect_cfg i s, effect_epoch i s, effect_hostMoves i s, effect_hostRead i s⟩

theorem effect_sameRecord (i : Instr) (s : State) : sameRecord s (effect i s) :=
  ⟨effect_fault i s, effect_cause i s, effect_faultWord i s⟩

/-- Settles O30: the effect's bytes and bits outside the write footprint are the old ones, and a
fault writes no byte and no bit. -/
theorem commandWritesOnlyItsFootprint : Obligations.CommandWritesOnlyItsFootprint := by
  intro i s t h
  obtain ⟨-, ⟨-, rfl⟩ | ⟨-, rfl⟩⟩ := (exec_next i s t).1 h
  · refine ⟨fun a ha => ?_, fun j hj => ?_, effect_sameSetting i s, fun _ => effect_sameRecord i s⟩
    · rw [readByte_effect, if_neg (by simp [ha])]
    · rw [readBit_effect, if_neg (by simp [hj])]
  · exact ⟨fun _ _ => rfl, fun _ _ => rfl, ⟨rfl, rfl, rfl, rfl⟩,
      fun unfaulted => by simp at unfaulted⟩

/-! ### The output depends on the read footprint and PACK's draw alone (R31) -/

/-- Two states agree on what a command may depend on. -/
structure SameInputs (i : Instr) (s s' : State) : Prop where
  pad : (∃ off n bbase, i = .pack off n bbase) → s'.padDraws = s.padDraws
  bytes : ∀ a, spanHolds (footprint i).bReads a = true → s'.readByte a = s.readByte a
  bits : ∀ j, spanHolds (footprint i).baReads j = true → s'.readBit j = s.readBit j

theorem spanHolds_some (start len a : Nat) :
    spanHolds (some ⟨start, len⟩) a = true ↔ start ≤ a ∧ a < start + len := by
  simp [spanHolds]

namespace State
variable {s s' : State}

theorem packedBytes_congr {n bbase : Nat} (pad : Byte)
    (h : ∀ k, k < n → s'.readBit (bbase + k) = s.readBit (bbase + k)) :
    s'.packedBytes n bbase pad = s.packedBytes n bbase pad := by
  refine List.map_congr_left fun j _ => congrArg byteOfBits (funext fun k => ?_)
  split_ifs with inside
  · exact h _ inside
  · rfl

theorem bitmapBits_congr {off n : Nat}
    (h : ∀ k, k < ceil8 n → s'.readByte (off + k) = s.readByte (off + k)) :
    s'.bitmapBits off n = s.bitmapBits off n := by
  refine List.map_congr_left fun k hk => ?_
  unfold bitmapBit
  rw [h _ (div8_lt_ceil8 (List.mem_range.1 hk))]

theorem payloadCrc_congr {off len : Nat}
    (h : ∀ k, k < len - 2 → s'.readByte (off + k) = s.readByte (off + k)) :
    s'.payloadCrc off len = s.payloadCrc off len :=
  congrArg crc16 (readBytes_congr s s' off (len - 2) h)

end State

theorem output_congr {i : Instr} {s s' : State} (h : SameInputs i s s') :
    output i s' = output i s := by
  obtain ⟨pad, bytes, bits⟩ := h
  cases i with
  | crc16 off len =>
    simp only [footprint, spanHolds_some] at bytes
    simp only [output]
    rw [State.readBytes_congr s s' _ _ fun k hk => bytes _ (by omega)]
  | crcstep crc byte => rfl
  | rdu16 off =>
    simp only [footprint, spanHolds_some] at bytes
    simp only [output, State.readField]
    rw [bytes off.toNat (by omega), bytes (off.toNat + 1) (by omega)]
  | wru16 off value => rfl
  | pack off n bbase =>
    simp only [footprint, spanHolds_some] at bits
    simp only [output, State.pad]
    rw [pad ⟨off, n, bbase, rfl⟩, State.packedBytes_congr _ fun k hk => bits _ (by omega)]
  | unpack off n bbase =>
    simp only [footprint, spanHolds_some] at bytes
    simp only [output]
    rw [State.bitmapBits_congr fun k hk => bytes _ (by omega)]
  | chkcrc off len =>
    by_cases short : len.toNat ≤ 2
    · simp only [output, short, if_true]
    · simp only [footprint, short, if_false, spanHolds_some] at bytes
      simp only [output, short, if_false, State.trailerMatches]
      rw [State.payloadCrc_congr fun k hk => bytes _ (by omega),
        bytes (off.toNat + len.toNat - 2) (by omega), bytes (off.toNat + len.toNat - 1) (by omega)]
  | appcrc off len =>
    by_cases short : len.toNat ≤ 2
    · simp only [output, short, if_true]
    · simp only [footprint, short, if_false, spanHolds_some] at bytes
      simp only [output, short, if_false]
      rw [State.payloadCrc_congr fun k hk => bytes _ (by omega)]

/-- Equal outputs leave R as it was in both states, or write it with one value. -/
theorem effect_sameR_or_holdsR {i : Instr} {s s' : State} (h : output i s' = output i s) :
    (sameR s (effect i s) ∧ sameR s' (effect i s')) ∨
      ((effect i s').r = (effect i s).r ∧ (effect i s).rWritten = true ∧
        (effect i s').rWritten = true) := by
  cases hr : (output i s).r with
  | none => exact .inl ⟨effect_sameR i s hr, effect_sameR i s' (h ▸ hr)⟩
  | some v =>
    obtain ⟨hv, hw⟩ := effect_holdsR i s hr
    obtain ⟨hv', hw'⟩ := effect_holdsR i s' (h ▸ hr)
    exact .inr ⟨hv'.trans hv.symm, hw, hw'⟩

/-- Settles O31: whether the footprint fits is decided by the parameters, and what is written is the
output, which is the same in the two states. -/
theorem commandDependsOnlyOnWhatItReads : Obligations.CommandDependsOnlyOnWhatItReads := by
  intro i s s' t _ clear' hcfg pad bytes bits h
  obtain ⟨clear, ⟨fits, rfl⟩ | ⟨misfit, rfl⟩⟩ := (exec_next i s t).1 h
  · have same : output i s' = output i s := output_congr ⟨pad, bytes, bits⟩
    have answers : exec i s' = .next (effect i s') :=
      (exec_next i s' _).2 ⟨clear', .inl ⟨hcfg ▸ fits, rfl⟩⟩
    refine ⟨effect i s', answers, by simp [clear, clear'], fun faulted => ?_, fun _ =>
      ⟨?_, effect_okWritten i s', effect_sameR_or_holdsR same, fun a ha => ?_, fun j hj => ?_⟩⟩
    · simp [clear] at faulted
    · rw [effect_ok, effect_ok, same]
    · rw [readByte_effect, readByte_effect, same, if_pos ha, if_pos ha]
    · rw [readBit_effect, readBit_effect, same, if_pos hj, if_pos hj]
  · have answers : exec i s' = .next (s'.raise .operandFault (encode i)) :=
      (exec_next i s' _).2 ⟨clear', .inr ⟨hcfg ▸ misfit, rfl⟩⟩
    exact ⟨_, answers, rfl, fun _ => rfl, fun unfaulted => by simp at unfaulted⟩

end Sys2Proof.Machine

namespace Sys2Proof.Machine

/-! ### Reads and writes of one command stay apart (R54) -/

/-- A span that ends where another starts, or before, shares no location with it. -/
theorem spanHolds_later_eq_false {p q : Span} {a : Nat} (h : p.start + p.len ≤ q.start)
    (hp : spanHolds (some p) a = true) : spanHolds (some q) a = false := by
  simp only [spanHolds, Bool.and_eq_true, Bool.and_eq_false_iff, decide_eq_true_eq,
    decide_eq_false_iff_not] at hp ⊢
  omega

/-- CHKCRC writes neither B nor BA. -/
theorem footprint_chkcrc_writes (off len : Half) :
    (footprint (.chkcrc off len)).bWrites = none ∧ (footprint (.chkcrc off len)).baWrites = none := by
  by_cases short : len.toNat ≤ 2 <;> simp only [footprint, short, if_true, if_false, and_self]

/-- APPCRC reaches nothing where len is at most 2. -/
theorem footprint_appcrc_short (off len : Half) (short : len.toNat ≤ 2) :
    footprint (.appcrc off len) = ⟨none, none, none, none⟩ :=
  if_pos short

/-- APPCRC of a frame reads its payload and writes the trailer behind it. -/
theorem footprint_appcrc_long (off len : Half) (long : 2 < len.toNat) :
    footprint (.appcrc off len) =
      ⟨some ⟨off.toNat, len.toNat - 2⟩, some ⟨off.toNat + len.toNat - 2, 2⟩, none, none⟩ :=
  if_neg (Nat.not_le.2 long)

/-- Settles O32: only APPCRC reads and writes one memory, and its trailer starts where the payload
it reads ends. Each other command reads and writes different memories, or writes none. -/
theorem readAndWriteFootprintsAreDisjoint : Obligations.ReadAndWriteFootprintsAreDisjoint := by
  intro i a
  cases i with
  | crc16 off len => exact ⟨fun _ => rfl, fun _ => rfl⟩
  | crcstep crc byte => exact ⟨fun _ => rfl, fun _ => rfl⟩
  | rdu16 off => exact ⟨fun _ => rfl, fun _ => rfl⟩
  | wru16 off value => exact ⟨nofun, fun _ => rfl⟩
  | pack off n bbase => exact ⟨nofun, fun _ => rfl⟩
  | unpack off n bbase => exact ⟨fun _ => rfl, nofun⟩
  | chkcrc off len =>
    obtain ⟨noBytes, noBits⟩ := footprint_chkcrc_writes off len
    rw [noBytes, noBits]
    exact ⟨fun _ => rfl, fun _ => rfl⟩
  | appcrc off len =>
    rcases Nat.lt_or_ge 2 len.toNat with long | short
    · rw [footprint_appcrc_long off len long]
      have behind : off.toNat + (len.toNat - 2) ≤ off.toNat + len.toNat - 2 := by omega
      exact ⟨spanHolds_later_eq_false behind, fun _ => rfl⟩
    · rw [footprint_appcrc_short off len short]
      exact ⟨fun _ => rfl, fun _ => rfl⟩

/-! ### A trailer read as a field (R40, R41, R42) -/

/-- A trailer's low byte stands where a field has its high byte. -/
theorem State.readField_writeTrailer (s : State) (o : Nat) (c : Half) :
    (s.writeTrailer o c).readField o = joinBytes (loByte c) (hiByte c) := by
  simp [readField, writeTrailer, readByte_writeByte]

/-- A command whose footprint fits has its effect, while FAULT is clear. -/
theorem exec_of_fits {i : Instr} {s : State} (clear : s.fault = false)
    (fits : footprintFits s.cfg (footprint i) = true) : exec i s = .next (effect i s) :=
  (exec_next i s _).2 ⟨clear, .inl ⟨fits, rfl⟩⟩

theorem exec_rdu16_of_inside {off : Half} {s : State} (clear : s.fault = false)
    (inside : off.toNat + 2 ≤ s.cfg.bufLen) :
    exec (.rdu16 off) s = .next ((s.setR (s.readField off.toNat)).setOk true) :=
  exec_of_fits clear (by simpa [footprint, footprintFits, spanFits] using inside)

theorem exec_appcrc_of_inside {off len : Half} {s : State} (clear : s.fault = false)
    (long : 2 < len.toNat) (inside : off.toNat + len.toNat ≤ s.cfg.bufLen) :
    exec (.appcrc off len) s = .next (s.sealed off len) := by
  have notShort : ¬ len.toNat ≤ 2 := Nat.not_le.2 long
  have fits : footprintFits s.cfg (footprint (.appcrc off len)) = true := by
    rw [(footprintFits_frame s.cfg off len notShort).2]
    exact decide_eq_true inside
  rw [exec_of_fits clear fits, effect, if_neg notShort]

/-- Settles O38: RDU16 joins the trailer's two bytes high first, and APPCRC wrote them low first. -/
theorem trailerReadsByteSwapped : Obligations.TrailerReadsByteSwapped := by
  intro off len at_ s clear long inside atTrailer
  have fieldInside : at_.toNat + 2 ≤ (s.sealed off len).cfg.bufLen := by
    change at_.toNat + 2 ≤ s.cfg.bufLen
    omega
  have field : (s.sealed off len).readField at_.toNat =
      joinBytes (loByte (s.sealed off len).r) (hiByte (s.sealed off len).r) := by
    rw [atTrailer]
    exact s.readField_writeTrailer _ _
  refine ⟨_, _, exec_appcrc_of_inside clear long inside,
    exec_rdu16_of_inside (s := s.sealed off len) clear fieldInside, ?_⟩
  calc ((s.sealed off len).readField at_.toNat).toNat
    _ = (joinBytes (loByte (s.sealed off len).r) (hiByte (s.sealed off len).r)).toNat := by
      rw [field]
    _ = 256 * ((s.sealed off len).r.toNat % 256) + (s.sealed off len).r.toNat / 256 := by
      rw [toNat_joinBytes, toNat_loByte, toNat_hiByte]

end Sys2Proof.Machine

namespace Sys2Proof
open Machine

/-! ### The decoder and the encoder undo each other (R62, R65, R66)

A word decodes to a command exactly when it is that command's word: what the decoder does to a word
follows from the fields of `encode`. -/

/-- A word decodes by its operation code, its zero fields and its operands. -/
theorem decode_eq_ok {w : Cmd} {i : Instr} :
    decode w = .ok i ↔
      ∃ op, fieldOPC w = op.code ∧ zeroFieldsOk op w = true ∧ takeOperands op w = i := by
  simp only [← Opcode.ofByte_eq_some, decode]
  cases Opcode.ofByte (fieldOPC w) with
  | none => simp
  | some op => by_cases hz : zeroFieldsOk op w = true <;> simp [hz]

theorem zeroFieldsOk_encode (i : Instr) : zeroFieldsOk i.opcode (encode i) = true := by
  cases i with
  | crcstep crc byte =>
    simpa [zeroFieldsOk, Instr.opcode, encode] using zeroHigh_hi byte
  | _ => simp [zeroFieldsOk, Instr.opcode, encode]

theorem takeOperands_encode (i : Instr) : takeOperands i.opcode (encode i) = i := by
  cases i with
  | crcstep crc byte =>
    simpa [takeOperands, Instr.opcode, encode] using zeroHigh_lo byte
  | _ => simp [takeOperands, Instr.opcode, encode]

/-- The operands a word holds give the word back, since its other fields are 0. -/
theorem encode_takeOperands {w : Cmd} {op : Opcode} (hop : fieldOPC w = op.code)
    (hz : zeroFieldsOk op w = true) : encode (takeOperands op w) = w := by
  obtain ⟨rsv, fc, fb, fa, opc, rfl⟩ : ∃ rsv fc fb fa opc, w = packWord rsv fc fb fa opc :=
    ⟨_, _, _, _, _, (packWord_fields w).symm⟩
  rw [fieldOPC_packWord] at hop
  subst hop
  cases op with
  | crcstep =>
    obtain ⟨hrsv, hfb, hfc⟩ : rsv = 0 ∧ hiByte fb = 0 ∧ fc = 0 := by
      simpa [zeroFieldsOk, hiByte] using hz
    simpa [takeOperands, encode, Opcode.code, packWord_inj, hrsv, hfc]
      using half_of_zeroHigh fb hfb
  | _ =>
    simp [zeroFieldsOk] at hz
    simp [takeOperands, encode, Opcode.code, hz]

/-- Settles O1: a command's word has the command's operation code, zero fields and operands. -/
theorem encodedCommandDecodesToItself : Obligations.EncodedCommandDecodesToItself := fun i =>
  decode_eq_ok.2 ⟨i.opcode, fieldOPC_encode i, zeroFieldsOk_encode i, takeOperands_encode i⟩

/-- Settles O2: a word that decodes is its operation code, zeros and its operands. -/
theorem decodedWordIsItsCommandsWord : Obligations.DecodedWordIsItsCommandsWord := by
  intro w i h
  obtain ⟨op, hop, hz, rfl⟩ := decode_eq_ok.1 h
  exact encode_takeOperands hop hz

theorem decode_eq_ok_iff_encode {w : Cmd} {i : Instr} : decode w = .ok i ↔ encode i = w :=
  ⟨decodedWordIsItsCommandsWord w i, fun h => h ▸ encodedCommandDecodesToItself i⟩

theorem encode_injective : Function.Injective encode := fun _ j h =>
  Except.ok.inj ((decode_eq_ok_iff_encode.2 h).symm.trans (encodedCommandDecodesToItself j))

/-! ### The opcode table (R63) -/

theorem hiByte_eq_zero_iff_toNat (h : Half) : hiByte h = 0 ↔ h.toNat < 256 := by
  rw [← BitVec.toNat_inj, toNat_hiByte]
  exact Nat.div_eq_zero_iff_lt (by decide)

theorem and_0xFF00_eq_zero_iff (h : Half) : h &&& 0xFF00 = 0 ↔ hiByte h = 0 := by
  constructor
  · intro masked
    calc hiByte h
      _ = hiByte (h &&& 0xFF00) := by
        rw [hiByte, hiByte, BitVec.extractLsb'_and]
        exact (BitVec.and_allOnes (x := hiByte h)).symm
      _ = 0 := by rw [masked]; decide
  · intro zero
    rw [← half_of_zeroHigh h zero]
    exact zeroHigh_and _

/-- Comparing a word, under a mask of OPC, RSV and some of FB and FC, with an operation code. -/
theorem packWord_and_eq_iff (rsv opc code : Byte) (fc fb fa fcMask fbMask : Half) :
    packWord rsv fc fb fa opc &&& packWord 0xFF fcMask fbMask 0 0xFF = packWord 0 0 0 0 code ↔
      opc = code ∧ rsv = 0 ∧ fb &&& fbMask = 0 ∧ fc &&& fcMask = 0 := by
  have byteMask (b : Byte) : b &&& 0xFF = b := BitVec.and_allOnes
  have faMask : fa &&& 0 = 0 := BitVec.and_zero
  rw [packWord_and, packWord_inj, byteMask, byteMask]
  tauto

/-- A row matches the words with its operation code whose zero fields are 0: its mask covers OPC
and those fields. -/
theorem and_mask_eq_pattern_iff {row : TableRow} (hrow : row ∈ opcodeTable) (w : Cmd) :
    w &&& row.mask = row.pattern ↔
      fieldOPC w = row.op.code ∧ zeroFieldsOk row.op w = true := by
  have keepNone (h : Half) : h &&& 0 = 0 := BitVec.and_zero
  have keepAll (h : Half) : h &&& 0xFFFF = h := BitVec.and_allOnes
  obtain ⟨rsv, fc, fb, fa, opc, rfl⟩ : ∃ rsv fc fb fa opc, w = packWord rsv fc fb fa opc :=
    ⟨_, _, _, _, _, (packWord_fields w).symm⟩
  rw [opcodeTable_fields] at hrow
  simp only [List.mem_cons, List.not_mem_nil, or_false] at hrow
  rcases hrow with rfl | rfl | rfl | rfl | rfl | rfl | rfl | rfl <;>
    simp only [packWord_and_eq_iff, keepNone, keepAll, and_0xFF00_eq_zero_iff, hiByte,
      zeroFieldsOk, Opcode.code, Bool.and_eq_true, beq_iff_eq, true_and, and_true,
      fieldOPC_packWord, fieldRSV_packWord, fieldFB_packWord, fieldFC_packWord]

/-- A row matches the words of the commands with its operation code. -/
theorem and_mask_eq_pattern_iff_decode {row : TableRow} (hrow : row ∈ opcodeTable) (w : Cmd) :
    w &&& row.mask = row.pattern ↔ ∃ i, decode w = .ok i ∧ i.opcode = row.op := by
  rw [and_mask_eq_pattern_iff hrow]
  constructor
  · rintro ⟨hop, hz⟩
    refine ⟨takeOperands row.op w, decode_eq_ok.2 ⟨row.op, hop, hz, rfl⟩, ?_⟩
    cases row.op <;> rfl
  · rintro ⟨i, hi, hop⟩
    obtain rfl := decode_eq_ok_iff_encode.1 hi
    rw [← hop]
    exact ⟨fieldOPC_encode i, zeroFieldsOk_encode i⟩

theorem eq_of_mem_opcodeTable_of_op_eq :
    ∀ row ∈ opcodeTable, ∀ row' ∈ opcodeTable, row.op = row'.op → row = row' := by
  decide

theorem exists_mem_opcodeTable (op : Opcode) : ∃ row ∈ opcodeTable, row.op = op := by
  cases op <;> decide

/-- Settles O3: a row matches the words that decode to its operation code, a word decodes to one
command only, and the table has one row for each operation code. -/
theorem wordDecodesToTheRowItMatches : Obligations.WordDecodesToTheRowItMatches := by
  refine ⟨fun w row hrow => and_mask_eq_pattern_iff_decode hrow w, ?_,
    fun i => exists_mem_opcodeTable i.opcode⟩
  intro w row row' hrow hrow' hit hit'
  obtain ⟨i, hi, hop⟩ := (and_mask_eq_pattern_iff_decode hrow w).1 hit
  obtain ⟨j, hj, hop'⟩ := (and_mask_eq_pattern_iff_decode hrow' w).1 hit'
  obtain rfl : i = j := Except.ok.inj (hi.symm.trans hj)
  exact eq_of_mem_opcodeTable_of_op_eq row hrow row' hrow' (hop.symm.trans hop')

/-! ### Words that are no command (R64, R65, R66) -/

theorem Opcode.code_bounds (op : Opcode) : 1 ≤ op.code.toNat ∧ op.code.toNat ≤ 8 := by
  cases op <;> decide

/-- Settles O4: the operation code of a word that decodes is 1 to 8. -/
theorem reservedOpcodeRaisesIllegalCommand : Obligations.ReservedOpcodeRaisesIllegalCommand := by
  intro w s clear reserved
  refine issueWord_illegal w s clear fun i hi => ?_
  obtain ⟨op, hop, -, -⟩ := decode_eq_ok.1 hi
  have bounds := op.code_bounds
  rw [← hop] at bounds
  rcases reserved with zero | large | rfl
  · simp [zero] at bounds
  · omega
  · exact absurd bounds (by decide)

/-- The fields that must be 0, by the number of the operation code. -/
theorem zeroFieldsOk_iff (op : Opcode) (w : Cmd) :
    zeroFieldsOk op w = true ↔
      fieldRSV w = 0 ∧
      (op.code ≠ 0x05 → op.code ≠ 0x06 → fieldFC w = 0) ∧
      (op.code = 0x03 → fieldFB w = 0) ∧
      (op.code = 0x02 → (fieldFB w).toNat < 256) := by
  rw [← hiByte_eq_zero_iff_toNat]
  cases op <;> simp [zeroFieldsOk, Opcode.code, hiByte] <;> tauto

/-- Settles O5: the zero fields of a word that decodes are 0. -/
theorem nonzeroReservedFieldRaisesIllegalCommand :
    Obligations.NonzeroReservedFieldRaisesIllegalCommand := by
  intro w s clear _ _ nonzero
  refine issueWord_illegal w s clear fun i hi => ?_
  obtain ⟨op, hop, hz, -⟩ := decode_eq_ok.1 hi
  obtain ⟨rsv, fc, fb, byte⟩ := (zeroFieldsOk_iff op w).1 hz
  rw [hop] at nonzero
  rcases nonzero with h | ⟨notPack, notUnpack, h⟩ | ⟨rdu16, h⟩ | ⟨crcstep, h⟩
  · exact h rsv
  · exact h (fc notPack notUnpack)
  · exact h (fb rdu16)
  · exact absurd (byte crcstep) (Nat.not_lt.2 h)

theorem issueWord_of_decode {w : Cmd} {i : Instr} (h : decode w = .ok i) (s : State) :
    issueWord w s = exec i s := by
  simp only [issueWord, h]

/-- Settles O6: a word decodes to the command whose word it is, and where it is the word of none it
does not decode. -/
theorem everyWordIsOneCommandOrIllegal : Obligations.EveryWordIsOneCommandOrIllegal := by
  intro w
  by_cases isWord : ∃ i, encode i = w
  · obtain ⟨i, rfl⟩ := isWord
    have decodes := encodedCommandDecodesToItself i
    exact .inl ⟨i, fun _ => encode_injective.eq_iff, decodes, issueWord_of_decode decodes⟩
  · rw [not_exists] at isWord
    exact .inr ⟨isWord, fun s clear =>
      issueWord_illegal w s clear fun i hi => isWord i (decode_eq_ok_iff_encode.1 hi)⟩

/-- Settles O7: the decoder evaluated on each word. -/
theorem wordsOfTheSpecDecode : Obligations.WordsOfTheSpecDecode := by
  unfold Obligations.WordsOfTheSpecDecode
  decide

end Sys2Proof

namespace Sys2Proof.Machine

/-! ### The assembler (R68, R69) -/

/-- The command as R68 writes it, its operands as numbers. -/
def writtenForm : Instr → AsmCmd
  | .crc16 off len => .crc16 off.toNat len.toNat
  | .crcstep crc byte => .crcstep crc.toNat byte.toNat
  | .rdu16 off => .rdu16 off.toNat
  | .wru16 off value => .wru16 off.toNat value.toNat
  | .pack off n bbase => .pack off.toNat n.toNat bbase.toNat
  | .unpack off n bbase => .unpack off.toNat n.toNat bbase.toNat
  | .chkcrc off len => .chkcrc off.toNat len.toNat
  | .appcrc off len => .appcrc off.toNat len.toNat

/-- The operands of a command as numbers, in FA, FB, FC order. -/
def operandValues : Instr → List Nat
  | .crc16 off len => [off.toNat, len.toNat]
  | .crcstep crc byte => [crc.toNat, byte.toNat]
  | .rdu16 off => [off.toNat]
  | .wru16 off value => [off.toNat, value.toNat]
  | .pack off n bbase => [off.toNat, n.toNat, bbase.toNat]
  | .unpack off n bbase => [off.toNat, n.toNat, bbase.toNat]
  | .chkcrc off len => [off.toNat, len.toNat]
  | .appcrc off len => [off.toNat, len.toNat]

theorem fits_toNat {n : Nat} (v : BitVec n) : fits n v.toNat = true := decide_eq_true v.isLt

theorem wellFormed_writtenForm (i : Instr) : (writtenForm i).wellFormed = true := by
  cases i <;> simp [writtenForm, AsmCmd.wellFormed, fits_toNat]

theorem expandAsm_writtenForm (i : Instr) : expandAsm (writtenForm i) = i := by
  cases i <;> simp [writtenForm, expandAsm]

theorem assemble_of_wellFormed {c : AsmCmd} (h : c.wellFormed = true) :
    assemble c = some (encode (expandAsm c)) := if_pos h

theorem assemble_of_not_wellFormed {c : AsmCmd} (h : c.wellFormed = false) :
    assemble c = none := if_neg (Bool.not_eq_true _ ▸ h)

theorem assemble_writtenForm (i : Instr) : assemble (writtenForm i) = some (encode i) := by
  rw [assemble_of_wellFormed (wellFormed_writtenForm i), expandAsm_writtenForm]

theorem namedCommand_writtenForm (i : Instr) :
    namedCommand (mnemonicText i.opcode) (operandValues i) = some (writtenForm i) := by
  cases i <;> rfl

theorem parseOperands_operandTexts (i : Instr) :
    parseOperands (operandTexts i) = some (operandValues i) := by
  cases i <;> simp [operandTexts, operandValues, parseOperands, parseOperand_hexHalf,
    parseOperand_hexByte]

theorem operandTexts_ne_nil (i : Instr) : operandTexts i ≠ [] := by
  cases i <;> exact List.cons_ne_nil _ _

theorem plainText_mnemonicText (op : Opcode) : plainText (mnemonicText op) := by
  refine ⟨?_, plainChar_mnemonicText op⟩
  cases op <;> exact List.cons_ne_nil _ _

/-- Settles O8: the line splits into the mnemonic and the operands, and these read back as the
command's numbers. -/
theorem writtenCommandAssemblesToItsWord : Obligations.WrittenCommandAssemblesToItsWord := by
  intro i
  obtain ⟨p, ps, texts⟩ := List.exists_cons_of_ne_nil (operandTexts_ne_nil i)
  have plain : ∀ q ∈ p :: ps, plainText q := texts ▸ plainText_operandTexts i
  have values : parseOperands (p :: ps) = some (operandValues i) :=
    texts ▸ parseOperands_operandTexts i
  obtain ⟨noSemicolon, lastNoSpace⟩ := joinOperands_ends p ps plain
  rw [asmText, texts]
  refine assembleLine_written _ _ (operandValues i) (writtenForm i) (encode i)
    (plainText_mnemonicText i.opcode) noSemicolon lastNoSpace ?_ (namedCommand_writtenForm i)
    (assemble_writtenForm i)
  rw [splitOperands_joinOperands p ps plain, values]

theorem fits_eq_false {width n : Nat} (h : 2 ^ width ≤ n) : fits width n = false :=
  decide_eq_false (Nat.not_lt.2 h)

/-- Settles O9: the assembler encodes the written command exactly when its operands fit. -/
theorem assemblyAcceptsExactlyFittingOperands :
    Obligations.AssemblyAcceptsExactlyFittingOperands := by
  refine ⟨fun c => assemble_of_not_wellFormed,
    fun c h => ⟨_, assemble_of_wellFormed h, encodedCommandDecodesToItself _⟩,
    fun off n h => assemble_of_not_wellFormed ?_,
    fun crc byte h => assemble_of_not_wellFormed ?_⟩
  · simp [AsmCmd.wellFormed, fits_eq_false (width := 16) h]
  · simp [AsmCmd.wellFormed, fits_eq_false (width := 8) h]

/-- Settles O10: the offset 0 fits, and the pseudo-command expands to the command at offset 0. -/
theorem pseudoCommandsExpand : Obligations.PseudoCommandsExpand := fun _ => ⟨rfl, rfl⟩

/-! ### The step (R60) -/

theorem tableWord_toNat (w : Cmd) : tableWord 64 w.toNat = some w := by
  have inRange : w.toNat % 2 ^ 64 = w.toNat := Nat.mod_eq_of_lt w.isLt
  rw [tableWord, inRange, if_pos w.isLt, BitVec.ofNat_toNat, BitVec.setWidth_eq]

theorem State.withFetchWord_toNat (s : State) (w : Cmd) :
    s.withFetchWord 64 w.toNat = { s with hostMoves := .issue w :: s.hostMoves } := by
  simp only [withFetchWord, tableWord_toNat]

/-- A step that issues a word executes the command the word decodes to. -/
theorem step_issue {s : State} {w : Cmd} {rest : List HostMove} {i : Instr}
    (hmoves : s.hostMoves = .issue w :: rest) (hw : decode w = .ok i) :
    step s = exec i { s with hostMoves := rest } := by
  rw [step_cons s (.issue w) rest hmoves]
  exact issueWord_of_decode hw _

/-- Settles O11: the host's first move is to issue the word, also where `withFetchWord` put it
there. -/
theorem stepRunsTheDecodedCommand : Obligations.StepRunsTheDecodedCommand := by
  refine ⟨fun _ _ _ _ => step_issue, fun s w i hw => ?_, step_nil⟩
  rw [s.withFetchWord_toNat w]
  exact step_issue rfl hw

end Sys2Proof.Machine

namespace Sys2Proof.Machine

/-! ### The CRC functions (R80, R81, R83) -/

/-- One iteration halves the accumulator as a number and tests whether it is odd. -/
theorem toNat_crcBit (c : Half) : (crcBit c).toNat = crcBitNat c.toNat := by
  have odd : c.getLsbD 0 = true ↔ c.toNat % 2 = 1 := by
    rw [BitVec.getLsbD, Nat.testBit_zero, decide_eq_true_iff]
  have half : (c >>> 1).toNat = c.toNat / 2 := by
    rw [BitVec.toNat_ushiftRight, Nat.shiftRight_one]
  unfold crcBit crcBitNat
  simp only [odd]
  split_ifs
  · rw [BitVec.toNat_xor, half]; rfl
  · exact half

theorem toNat_crcBits (n : Nat) (c : Half) : (crcBits c n).toNat = crcBitNat^[n] c.toNat := by
  induction n generalizing c with
  | zero => rfl
  | succ n ih => rw [crcBits, ih, toNat_crcBit, Function.iterate_succ_apply]

/-- Settles O19: the byte goes into the accumulator's low bits, and each of the eight iterations
acts on the accumulator as a number. -/
theorem crc16StepIsEightIterations : Obligations.Crc16StepIsEightIterations := by
  intro c b
  have extended : (b.zeroExtend 16).toNat = b.toNat :=
    BitVec.toNat_setWidth_of_le (by decide)
  rw [crc16Step, toNat_crcBits, BitVec.toNat_xor, extended]

/-- Settles O20: the accumulator runs over the bytes from the initial value. -/
theorem crc16FoldsTheBytesFromAllOnes : Obligations.Crc16FoldsTheBytesFromAllOnes :=
  ⟨fun bs => crcFold_eq_foldl crcInit bs, rfl⟩

/-- A byte equal to the whole accumulator clears it. -/
theorem crc16Step_zeroExtend_self (b : Byte) : crc16Step (b.zeroExtend 16) b = 0 := by
  rw [crc16Step, BitVec.xor_self]
  exact crcBits_zero 8

/-- The accumulator's own bytes, low byte first, clear it: the low byte leaves the high one. -/
theorem crcFold_own_bytes (c : Half) : crcFold c [loByte c, hiByte c] = 0 := by
  have low : crc16Step c (loByte c) = (hiByte c).zeroExtend 16 := by
    simpa using crc16Step_low (hiByte c) (loByte c)
  rw [crcFold, low]
  exact crc16Step_zeroExtend_self (hiByte c)

/-- Settles O21: after the sequence the accumulator is its CRC, which the trailer's bytes clear. -/
theorem crcOfASealedSequenceIsZero : Obligations.CrcOfASealedSequenceIsZero := by
  intro m
  rw [crc16, crcFold_append]
  exact crcFold_own_bytes (crc16 m)

/-! ### CRC16 and CRCSTEP (R82, R84) -/

/-- A command that writes R and OK alone leaves everything else of the state. -/
theorem setR_setOk_frame (s : State) (v : Half) (ok : Bool) :
    holdsR ((s.setR v).setOk ok) v ∧ holdsOk ((s.setR v).setOk ok) ok ∧
      sameB s ((s.setR v).setOk ok) ∧ sameBA s ((s.setR v).setOk ok) ∧
      sameRecord s ((s.setR v).setOk ok) ∧ sameSetting s ((s.setR v).setOk ok) ∧
      ((s.setR v).setOk ok).padDraws = s.padDraws :=
  ⟨⟨rfl, rfl⟩, ⟨rfl, rfl⟩, fun _ => rfl, fun _ => rfl, ⟨rfl, rfl, rfl⟩, ⟨rfl, rfl, rfl, rfl⟩, rfl⟩

/-- A command whose footprint breaks a bound takes OperandFault, while FAULT is clear. -/
theorem exec_of_not_fits {i : Instr} {s : State} (clear : s.fault = false)
    (outside : footprintFits s.cfg (footprint i) = false) :
    exec i s = .next (s.raise .operandFault (encode i)) :=
  (exec_next i s _).2 ⟨clear, .inr ⟨by simp [outside], rfl⟩⟩

theorem footprintFits_crc16 (c : Config) (off len : Half) :
    footprintFits c (footprint (.crc16 off len)) = decide (off.toNat + len.toNat ≤ c.bufLen) := by
  simp [footprint, footprintFits, spanFits]

theorem exec_crc16_of_inside {off len : Half} {s : State} (clear : s.fault = false)
    (inside : off.toNat + len.toNat ≤ s.cfg.bufLen) :
    exec (.crc16 off len) s =
      .next ((s.setR (crc16 (s.readBytes off.toNat len.toNat))).setOk true) :=
  exec_of_fits clear ((footprintFits_crc16 s.cfg off len).trans (decide_eq_true inside))

theorem exec_crc16_of_outside {off len : Half} {s : State} (clear : s.fault = false)
    (outside : s.cfg.bufLen < off.toNat + len.toNat) :
    exec (.crc16 off len) s = .next (s.raise .operandFault (encode (.crc16 off len))) :=
  exec_of_not_fits clear
    ((footprintFits_crc16 s.cfg off len).trans (decide_eq_false (Nat.not_le.2 outside)))

theorem exec_crcstep {s : State} (clear : s.fault = false) (crc : Half) (byte : Byte) :
    exec (.crcstep crc byte) s = .next ((s.setR (crc16Step crc byte)).setOk true) :=
  exec_of_fits clear rfl

/-- Settles O22: CRC16 within the bound writes R and OK alone, and its words have RSV and FC 0. -/
theorem crc16ComputesTheCrcOfARange : Obligations.Crc16ComputesTheCrcOfARange := by
  refine ⟨fun off len s clear inside =>
      ⟨_, exec_crc16_of_inside clear inside, setR_setOk_frame s _ true⟩,
    fun off len s => exec_crc16_of_outside,
    wordForm_of .crc16 _ _ (fun w => ?_) fun _ _ => rfl⟩
  simp [zeroFieldsOk_iff, Opcode.code]

/-- Settles O23: CRCSTEP writes R and OK alone, and its words have RSV, FC and the high byte of FB
0, so that FB is its low byte. -/
theorem crcstepUpdatesTheAccumulator : Obligations.CrcstepUpdatesTheAccumulator := by
  refine ⟨fun crc byte s clear => ⟨_, exec_crcstep clear crc byte, setR_setOk_frame s _ true⟩,
    wordForm_of .crcstep _ _ (fun w => ?_) fun w _ => ?_⟩
  · simp [zeroFieldsOk_iff, Opcode.code]
  · have lowByte : (fieldFB w).extractLsb' 0 8 = BitVec.ofNat 8 (fieldFB w).toNat := rfl
    rw [takeOperands, lowByte]

/-! ### The CRCSTEP chain (R85) -/

/-- A chain of at least one byte ends with the accumulator after its bytes, and in the state with
that accumulator written to R. -/
theorem crcstepChain_cons (b : Byte) (bs : List Byte) (c : Half) (s : State)
    (clear : s.fault = false) :
    crcstepChain (b :: bs) c s =
      some (crcFold c (b :: bs), (s.setR (crcFold c (b :: bs))).setOk true) := by
  induction bs generalizing b c s with
  | nil => rw [crcstepChain, exec_crcstep clear]; rfl
  | cons b' bs ih =>
    rw [crcstepChain, exec_crcstep clear]
    exact ih b' (crc16Step c b) _ clear

/-- Settles O34: the chain over the bytes of the range runs the accumulator over them from the
initial value, as CRC16 does. -/
theorem crcstepChainEqualsCrc16 : Obligations.CrcstepChainEqualsCrc16 := by
  intro off n s clear inside
  have length := s.length_readBytes off.toNat n.toNat
  have range := exec_crc16_of_inside clear inside
  cases bytes : s.readBytes off.toNat n.toNat with
  | nil =>
    rw [bytes] at length range
    exact ⟨_, s, _, rfl, range, rfl, rfl, fun nonempty => absurd length nonempty.ne⟩
  | cons b bs =>
    rw [bytes] at range
    exact ⟨_, _, _, crcstepChain_cons b bs _ s clear, range, rfl, rfl, fun _ => rfl⟩

/-! ### CRC16 over a valid frame (R70, R82, R83) -/

/-- A frame is valid when its trailer holds the CRC of its payload. -/
theorem State.frameValid_iff (s : State) (off len : Nat) :
    s.frameValid off len = true ↔
      2 < len ∧ s.readTrailer (off + len - 2) = s.payloadCrc off len := by
  simp only [frameValid, Bool.and_eq_true, decide_eq_true_eq, beq_iff_eq]
  refine and_congr_right fun long => ?_
  rw [readTrailer, show off + len - 2 + 1 = off + len - 1 by omega, eq_comm]

/-- The bytes of a frame are its payload and the two bytes of its trailer. -/
theorem State.readBytes_frame (s : State) {off len : Nat} (long : 2 < len) :
    s.readBytes off len = s.readBytes off (len - 2) ++
      [loByte (s.readTrailer (off + len - 2)), hiByte (s.readTrailer (off + len - 2))] := by
  calc s.readBytes off len
    _ = s.readBytes off (len - 2 + 2) := by rw [Nat.sub_add_cancel long.le]
    _ = s.readBytes off (len - 2) ++ s.readBytes (off + len - 2) 2 := by
      rw [readBytes_add, Nat.add_sub_assoc long.le]
    _ = _ := by simp [readBytes, readTrailer]

theorem State.crc16_of_frameValid {s : State} {off len : Nat}
    (valid : s.frameValid off len = true) : crc16 (s.readBytes off len) = 0 := by
  obtain ⟨long, trailer⟩ := (s.frameValid_iff off len).1 valid
  rw [s.readBytes_frame long, trailer]
  exact crcOfASealedSequenceIsZero _

/-- APPCRC makes a frame valid: its trailer is written behind the payload. -/
theorem State.frameValid_sealed (s : State) {off len : Half} (long : 2 < len.toNat) :
    (s.sealed off len).frameValid off.toNat len.toNat = true := by
  have payload : (s.sealed off len).payloadCrc off.toNat len.toNat =
      s.payloadCrc off.toNat len.toNat :=
    payloadCrc_congr fun k hk => s.readByte_writeTrailer_other _ _ _ (by omega)
  rw [frameValid_iff, payload]
  exact ⟨long, s.readTrailer_writeTrailer _ _⟩

theorem exec_crc16_of_frameValid {off len : Half} {s : State} (clear : s.fault = false)
    (inside : off.toNat + len.toNat ≤ s.cfg.bufLen)
    (valid : s.frameValid off.toNat len.toNat = true) :
    exec (.crc16 off len) s = .next ((s.setR 0).setOk true) := by
  rw [exec_crc16_of_inside clear inside, State.crc16_of_frameValid valid]

/-- Settles O39: a valid frame is a payload followed by its own CRC, and a sealed frame is valid. -/
theorem crc16OfAValidFrameIsZero : Obligations.Crc16OfAValidFrameIsZero := by
  constructor
  · intro off len s clear inside valid
    exact ⟨_, exec_crc16_of_frameValid clear inside valid, rfl, rfl⟩
  · intro off len s clear long inside
    exact ⟨_, _, exec_appcrc_of_inside clear long inside,
      exec_crc16_of_frameValid clear inside (s.frameValid_sealed long), rfl, rfl⟩

end Sys2Proof.Machine

namespace Sys2Proof.Machine

/-! ### Fields of B (R40, R90, R92, R93) -/

/-- What the effect of a command leaves as it was: all that is outside its write footprint. -/
theorem effect_frame (i : Instr) (s : State) :
    (∀ a, spanHolds (footprint i).bWrites a = false → (effect i s).readByte a = s.readByte a) ∧
      (∀ j, spanHolds (footprint i).baWrites j = false → (effect i s).readBit j = s.readBit j) ∧
      sameRecord s (effect i s) ∧ sameSetting s (effect i s) := by
  refine ⟨fun a ha => ?_, fun j hj => ?_, effect_sameRecord i s, effect_sameSetting i s⟩
  · rw [readByte_effect, if_neg (ne_true_of_eq_false ha)]
  · rw [readBit_effect, if_neg (ne_true_of_eq_false hj)]

theorem spanHolds_some_eq_false (start len a : Nat) :
    spanHolds (some ⟨start, len⟩) a = false ↔ a < start ∨ start + len ≤ a := by
  rw [← Bool.not_eq_true, spanHolds_some]
  omega

theorem footprintFits_rdu16 (c : Config) (off : Half) :
    footprintFits c (footprint (.rdu16 off)) = decide (off.toNat + 2 ≤ c.bufLen) := by
  simp [footprint, footprintFits, spanFits]

theorem footprintFits_wru16 (c : Config) (off value : Half) :
    footprintFits c (footprint (.wru16 off value)) = decide (off.toNat + 2 ≤ c.bufLen) := by
  simp [footprint, footprintFits, spanFits]

theorem exec_rdu16_of_outside {off : Half} {s : State} (clear : s.fault = false)
    (outside : s.cfg.bufLen < off.toNat + 2) :
    exec (.rdu16 off) s = .next (s.raise .operandFault (encode (.rdu16 off))) :=
  exec_of_not_fits clear
    ((footprintFits_rdu16 s.cfg off).trans (decide_eq_false (Nat.not_le.2 outside)))

theorem exec_wru16_of_inside {off value : Half} {s : State} (clear : s.fault = false)
    (inside : off.toNat + 2 ≤ s.cfg.bufLen) :
    exec (.wru16 off value) s = .next ((s.writeField off.toNat value).setOk true) :=
  exec_of_fits clear ((footprintFits_wru16 s.cfg off value).trans (decide_eq_true inside))

theorem exec_wru16_of_outside {off value : Half} {s : State} (clear : s.fault = false)
    (outside : s.cfg.bufLen < off.toNat + 2) :
    exec (.wru16 off value) s = .next (s.raise .operandFault (encode (.wru16 off value))) :=
  exec_of_not_fits clear
    ((footprintFits_wru16 s.cfg off value).trans (decide_eq_false (Nat.not_le.2 outside)))

theorem State.readByte_writeField_hi (s : State) (o : Nat) (v : Half) :
    (s.writeField o v).readByte o = hiByte v := by
  simp [writeField, readByte_writeByte]

theorem State.readByte_writeField_lo (s : State) (o : Nat) (v : Half) :
    (s.writeField o v).readByte (o + 1) = loByte v := by
  simp [writeField]

/-- Writing a field's own value back leaves every byte of B. -/
theorem State.sameB_writeField_readField (s : State) (o : Nat) :
    sameB s (s.writeField o (s.readField o)) := by
  intro a
  rcases eq_or_ne a o with rfl | notHigh
  · rw [readByte_writeField_hi, readField, hiByte_joinBytes]
  rcases eq_or_ne a (o + 1) with rfl | notLow
  · rw [readByte_writeField_lo, readField, loByte_joinBytes]
  · exact s.readByte_writeField_other o a _ (by omega)

/-- Settles O35: a field written reads back as the value, and a field's own value written back
leaves its two bytes. -/
theorem fieldWriteAndReadAgree : Obligations.FieldWriteAndReadAgree := by
  constructor
  · intro o v s clear inside
    refine ⟨_, _, exec_wru16_of_inside clear inside,
      exec_rdu16_of_inside (s := (s.writeField o.toNat v).setOk true) clear inside, ?_, rfl⟩
    exact s.readField_writeField o.toNat v
  · intro o s clear inside
    exact ⟨_, _, exec_rdu16_of_inside clear inside,
      exec_wru16_of_inside (s := (s.setR (s.readField o.toNat)).setOk true) clear inside,
      s.sameB_writeField_readField o.toNat⟩

/-- Settles O24: RDU16 joins the two bytes high first and writes R and OK alone. -/
theorem rdu16ReadsHighByteFirst : Obligations.Rdu16ReadsHighByteFirst := by
  refine ⟨fun off s clear inside => ?_, fun off s => exec_rdu16_of_outside,
    wordForm_of .rdu16 _ _ (fun w => ?_) fun _ _ => rfl⟩
  · obtain ⟨⟨-, written⟩, frame⟩ := setR_setOk_frame s (s.readField off.toNat) true
    exact ⟨_, exec_rdu16_of_inside clear inside, ⟨toNat_joinBytes _ _, written⟩, frame⟩
  · simp [zeroFieldsOk_iff, Opcode.code]

/-- Settles O25: WRU16 writes the value's two bytes high first, and its write footprint is those
two bytes. -/
theorem wru16WritesHighByteFirst : Obligations.Wru16WritesHighByteFirst := by
  refine ⟨fun off value s clear inside => ?_, fun off value s => exec_wru16_of_outside,
    wordForm_of .wru16 _ _ (fun w => ?_) fun _ _ => rfl⟩
  · obtain ⟨bytes, bits, record, setting⟩ := effect_frame (.wru16 off value) s
    refine ⟨_, exec_wru16_of_inside clear inside, ?_, ?_, fun a notHigh notLow => bytes a ?_,
      ⟨rfl, rfl⟩, ⟨rfl, rfl⟩, fun j => bits j rfl, record, setting, rfl⟩
    · exact (congrArg BitVec.toNat (s.readByte_writeField_hi _ value)).trans (toNat_hiByte value)
    · exact (congrArg BitVec.toNat (s.readByte_writeField_lo _ value)).trans (toNat_loByte value)
    · exact (spanHolds_some_eq_false _ _ a).2 (by omega)
  · simp [zeroFieldsOk_iff, Opcode.code]

/-! ### Bitmaps: PACK and UNPACK (R95 to R101) -/

theorem footprintFits_pack (c : Config) (off n bbase : Half) :
    footprintFits c (footprint (.pack off n bbase)) =
      decide (off.toNat + ceil8 n.toNat ≤ c.bufLen ∧ bbase.toNat + n.toNat ≤ c.bitLen) := by
  simp [footprint, footprintFits, spanFits]

theorem footprintFits_unpack (c : Config) (off n bbase : Half) :
    footprintFits c (footprint (.unpack off n bbase)) =
      decide (off.toNat + ceil8 n.toNat ≤ c.bufLen ∧ bbase.toNat + n.toNat ≤ c.bitLen) := by
  simp [footprint, footprintFits, spanFits]

section Exec
variable {off n bbase : Half} {s : State}

theorem exec_pack_of_inside (clear : s.fault = false)
    (bytesInside : off.toNat + ceil8 n.toNat ≤ s.cfg.bufLen)
    (bitsInside : bbase.toNat + n.toNat ≤ s.cfg.bitLen) :
    exec (.pack off n bbase) s = .next (s.packed off n bbase) :=
  exec_of_fits clear
    ((footprintFits_pack s.cfg off n bbase).trans (decide_eq_true ⟨bytesInside, bitsInside⟩))

theorem exec_unpack_of_inside (clear : s.fault = false)
    (bytesInside : off.toNat + ceil8 n.toNat ≤ s.cfg.bufLen)
    (bitsInside : bbase.toNat + n.toNat ≤ s.cfg.bitLen) :
    exec (.unpack off n bbase) s = .next (s.unpacked off n bbase) :=
  exec_of_fits clear
    ((footprintFits_unpack s.cfg off n bbase).trans (decide_eq_true ⟨bytesInside, bitsInside⟩))

theorem exec_pack_of_outside (clear : s.fault = false)
    (outside : s.cfg.bufLen < off.toNat + ceil8 n.toNat ∨ s.cfg.bitLen < bbase.toNat + n.toNat) :
    exec (.pack off n bbase) s = .next (s.raise .operandFault (encode (.pack off n bbase))) :=
  exec_of_not_fits clear
    ((footprintFits_pack s.cfg off n bbase).trans (decide_eq_false (by omega)))

theorem exec_unpack_of_outside (clear : s.fault = false)
    (outside : s.cfg.bufLen < off.toNat + ceil8 n.toNat ∨ s.cfg.bitLen < bbase.toNat + n.toNat) :
    exec (.unpack off n bbase) s =
      .next (s.raise .operandFault (encode (.unpack off n bbase))) :=
  exec_of_not_fits clear
    ((footprintFits_unpack s.cfg off n bbase).trans (decide_eq_false (by omega)))

end Exec

namespace State
variable (s : State) (off n bbase : Half)

@[simp] theorem writeBytes_padDraws (a : Nat) (vs : List Byte) :
    (s.writeBytes a vs).padDraws = s.padDraws := by rw [writeBytes_eq]

@[simp] theorem writeBits_padDraws (i : Nat) (vs : List Bool) :
    (s.writeBits i vs).padDraws = s.padDraws := by rw [writeBits_eq]

theorem packed_fault : (s.packed off n bbase).fault = s.fault := effect_fault (.pack off n bbase) s

theorem packed_cfg : (s.packed off n bbase).cfg = s.cfg := effect_cfg (.pack off n bbase) s

theorem packed_padDraws : (s.packed off n bbase).padDraws = s.padDraws + 1 := by simp

theorem unpacked_padDraws : (s.unpacked off n bbase).padDraws = s.padDraws := by simp

/-- A byte of the bitmap PACK leaves. -/
theorem readByte_packedState {j : Nat} (h : j < ceil8 n.toNat) :
    (s.packed off n bbase).readByte (off.toNat + j) =
      s.packedByte n.toNat bbase.toNat (s.pad off n bbase) j :=
  readByte_packed s s off.toNat n.toNat bbase.toNat _ j h

/-- A bit of the bitmap PACK leaves: a packed bit, or the draw's beyond N (R96, R97). -/
theorem bitmapBit_packedState {i : Nat} (h : i < 8 * ceil8 n.toNat) :
    (s.packed off n bbase).bitmapBit off.toNat i =
      if i < n.toNat then s.readBit (bbase.toNat + i)
      else (s.pad off n bbase).getLsbD (i % 8) := by
  rw [bitmapBit, readByte_packedState s off n bbase (Nat.div_lt_of_lt_mul h),
    getLsbD_packedByte _ _ _ _ _ _ (Nat.mod_lt i (by decide)), Nat.div_add_mod]

/-- A bit of BA that UNPACK leaves in its range. -/
theorem readBit_unpackedState {i : Nat} (h : i < n.toNat) :
    (s.unpacked off n bbase).readBit (bbase.toNat + i) = s.bitmapBit off.toNat i :=
  readBit_unpacked s s off.toNat n.toNat bbase.toNat i h

end State

theorem lt_mul_ceil8 {n i : Nat} (h : i < n) : i < 8 * ceil8 n := by unfold ceil8; omega

/-- Settles O26: the bitmap PACK leaves holds the packed bits and, beyond them, the draw's; its
write footprint is the bitmap. -/
theorem packPacksTheBits : Obligations.PackPacksTheBits := by
  refine ⟨fun off n bbase s clear bytesInside bitsInside => ?_,
    fun off n bbase s => exec_pack_of_outside,
    wordForm_of .pack _ _ (fun w => ?_) fun _ _ => rfl⟩
  · obtain ⟨bytes, bits, record, setting⟩ := effect_frame (.pack off n bbase) s
    refine ⟨_, exec_pack_of_inside clear bytesInside bitsInside, fun i inside => ?_,
      fun i beyond inside => ?_,
      fun a outside => bytes a ((spanHolds_some_eq_false _ _ a).2 outside), toNat_ceil8 n, rfl,
      ⟨rfl, rfl⟩, fun j => bits j rfl, record, setting, s.packed_padDraws off n bbase⟩
    · exact (s.bitmapBit_packedState off n bbase (lt_mul_ceil8 inside)).trans (if_pos inside)
    · exact (s.bitmapBit_packedState off n bbase inside).trans (if_neg (Nat.not_lt.2 beyond))
  · simp [zeroFieldsOk_iff, Opcode.code]

/-- Settles O27: UNPACK leaves the bitmap's bits in its range of BA, which is its write
footprint. -/
theorem unpackUnpacksTheBits : Obligations.UnpackUnpacksTheBits := by
  refine ⟨fun off n bbase s clear bytesInside bitsInside => ?_,
    fun off n bbase s => exec_unpack_of_outside,
    wordForm_of .unpack _ _ (fun w => ?_) fun _ _ => rfl⟩
  · obtain ⟨bytes, bits, record, setting⟩ := effect_frame (.unpack off n bbase) s
    exact ⟨_, exec_unpack_of_inside clear bytesInside bitsInside,
      fun i inside => s.readBit_unpackedState off n bbase inside,
      fun j outside => bits j ((spanHolds_some_eq_false _ _ j).2 outside), toNat_ceil8 n, rfl,
      ⟨rfl, rfl⟩, fun a => bytes a rfl, record, setting, s.unpacked_padDraws off n bbase⟩
  · simp [zeroFieldsOk_iff, Opcode.code]

/-- A byte of the bitmap whose eight bits are all below N holds no padding (R96). -/
theorem State.packedByte_congr_of_whole {s s' : State} {n bbase j : Nat} (pad pad' : Byte)
    (whole : 8 * j + 8 ≤ n)
    (same : ∀ i, i < n → s'.readBit (bbase + i) = s.readBit (bbase + i)) :
    s'.packedByte n bbase pad' j = s.packedByte n bbase pad j := by
  refine BitVec.eq_of_getLsbD_eq fun k hk => ?_
  have inside : 8 * j + k < n := by omega
  rw [getLsbD_packedByte _ _ _ _ _ _ hk, getLsbD_packedByte _ _ _ _ _ _ hk, if_pos inside,
    if_pos inside, same _ inside]

/-- Settles O33: with N a multiple of 8 every byte of the bitmap is whole. -/
theorem packOfWholeBytesIsDetermined : Obligations.PackOfWholeBytesIsDetermined := by
  intro off n bbase s s' clear clear' hcfg multiple bytesInside bitsInside same
  refine ⟨_, _, exec_pack_of_inside clear bytesInside bitsInside,
    exec_pack_of_inside clear' (hcfg ▸ bytesInside) (hcfg ▸ bitsInside), fun j hj => ?_⟩
  have whole : 8 * j + 8 ≤ n.toNat := by unfold ceil8 at hj; omega
  rw [State.readByte_packedState _ _ _ _ hj, State.readByte_packedState _ _ _ _ hj]
  exact State.packedByte_congr_of_whole _ _ whole same

/-- Settles O36: UNPACK reads the bitmap PACK left, whose bits below N are the packed ones. -/
theorem packThenUnpackGivesTheBitsBack : Obligations.PackThenUnpackGivesTheBitsBack := by
  intro off n bbase bbase2 s clear bytesInside bitsInside bitsInside2
  have hcfg := s.packed_cfg off n bbase
  refine ⟨_, _, exec_pack_of_inside clear bytesInside bitsInside,
    exec_unpack_of_inside ((s.packed_fault off n bbase).trans clear)
      (hcfg ▸ bytesInside) (hcfg ▸ bitsInside2), fun i inside => ?_⟩
  calc ((s.packed off n bbase).unpacked off n bbase2).readBit (bbase2.toNat + i)
    _ = (s.packed off n bbase).bitmapBit off.toNat i :=
      State.readBit_unpackedState _ off n bbase2 inside
    _ = s.readBit (bbase.toNat + i) := by
      rw [State.bitmapBit_packedState s off n bbase (lt_mul_ceil8 inside), if_pos inside]

/-- The logical bits of a bitmap are those of its bytes but the last, and the last byte's up to the
bit of N - 1 (R100). -/
theorem State.bitmapBit_congr {s s' : State} {off n i : Nat} (inside : i < n)
    (bytes : ∀ j, j + 1 < ceil8 n → s'.readByte (off + j) = s.readByte (off + j))
    (lastBits : ∀ k, 0 < n → k ≤ (n - 1) % 8 →
      (s'.readByte (off + (ceil8 n - 1))).getLsbD k =
        (s.readByte (off + (ceil8 n - 1))).getLsbD k) :
    s'.bitmapBit off i = s.bitmapBit off i := by
  unfold bitmapBit
  by_cases notLast : i / 8 + 1 < ceil8 n
  · rw [bytes _ notLast]
  · have last : i / 8 = ceil8 n - 1 := by unfold ceil8 at *; omega
    have logical : i % 8 ≤ (n - 1) % 8 := by unfold ceil8 at *; omega
    rw [last]
    exact lastBits _ (by omega) logical

/-- Settles O37: UNPACK's R is the byte count, its OK is 1, and its bits are the bitmap's logical
ones. -/
theorem unpackIgnoresPadding : Obligations.UnpackIgnoresPadding := by
  intro off n bbase s s' clear clear' hcfg bytesInside bitsInside bytes lastBits
  refine ⟨_, _, exec_unpack_of_inside clear bytesInside bitsInside,
    exec_unpack_of_inside clear' (hcfg ▸ bytesInside) (hcfg ▸ bitsInside), rfl, rfl,
    fun i inside => ?_⟩
  rw [State.readBit_unpackedState _ _ _ _ inside, State.readBit_unpackedState _ _ _ _ inside]
  exact State.bitmapBit_congr inside bytes lastBits

end Sys2Proof.Machine

namespace Sys2Proof.Machine

/-! ### What CHKCRC and APPCRC answer (R110, R113) -/

section Exec
variable {off len : Half} {s : State}

theorem exec_chkcrc_short (clear : s.fault = false) (short : len.toNat ≤ 2) :
    exec (.chkcrc off len) s = .next (s.setOk false) :=
  (execChkcrc_next off len s _).2 ⟨clear, .inl ⟨short, rfl⟩⟩

theorem exec_appcrc_short (clear : s.fault = false) (short : len.toNat ≤ 2) :
    exec (.appcrc off len) s = .next (s.setOk false) :=
  (execAppcrc_next off len s _).2 ⟨clear, .inl ⟨short, rfl⟩⟩

theorem exec_chkcrc_of_inside (clear : s.fault = false) (long : 2 < len.toNat)
    (inside : off.toNat + len.toNat ≤ s.cfg.bufLen) :
    exec (.chkcrc off len) s = .next (s.checked off len) :=
  (execChkcrc_next off len s _).2 ⟨clear, .inr (.inl ⟨long, decide_eq_true inside, rfl⟩)⟩

theorem State.not_hasBytes_of_outside {a n : Nat} (outside : s.cfg.bufLen < a + n) :
    ¬ s.hasBytes a n = true :=
  fun fits => Nat.not_le.2 outside (of_decide_eq_true fits)

theorem exec_chkcrc_of_outside (clear : s.fault = false) (long : 2 < len.toNat)
    (outside : s.cfg.bufLen < off.toNat + len.toNat) :
    exec (.chkcrc off len) s = .next (s.raise .operandFault (encode (.chkcrc off len))) :=
  (execChkcrc_next off len s _).2
    ⟨clear, .inr (.inr ⟨long, State.not_hasBytes_of_outside outside, rfl⟩)⟩

theorem exec_appcrc_of_outside (clear : s.fault = false) (long : 2 < len.toNat)
    (outside : s.cfg.bufLen < off.toNat + len.toNat) :
    exec (.appcrc off len) s = .next (s.raise .operandFault (encode (.appcrc off len))) :=
  (execAppcrc_next off len s _).2
    ⟨clear, .inr (.inr ⟨long, State.not_hasBytes_of_outside outside, rfl⟩)⟩

end Exec

/-- A command that writes OK alone leaves everything else of the state. -/
theorem setOk_frame (s : State) (ok : Bool) :
    holdsOk (s.setOk ok) ok ∧ sameR s (s.setOk ok) ∧ sameB s (s.setOk ok) ∧
      sameBA s (s.setOk ok) ∧ sameRecord s (s.setOk ok) ∧ sameSetting s (s.setOk ok) ∧
      (s.setOk ok).padDraws = s.padDraws :=
  ⟨⟨rfl, rfl⟩, ⟨rfl, rfl⟩, fun _ => rfl, fun _ => rfl, ⟨rfl, rfl, rfl⟩, ⟨rfl, rfl, rfl, rfl⟩, rfl⟩

/-! ### The verdict over a frame (R70, R110, R111) -/

namespace State

theorem trailerMatches_iff (s : State) (off len : Nat) (c : Half) :
    s.trailerMatches off len c = true ↔
      (s.readByte (off + len - 2)).toNat = c.toNat % 256 ∧
      (s.readByte (off + len - 1)).toNat = c.toNat / 256 := by
  simp only [trailerMatches, Bool.and_eq_true, beq_iff_eq, ← BitVec.toNat_inj, toNat_loByte,
    toNat_hiByte]

/-- Validity with the trailer's value as a number, low byte first. -/
theorem frameValid_iff_toNat (s : State) (off len : Nat) :
    s.frameValid off len = true ↔
      2 < len ∧ (s.payloadCrc off len).toNat =
        256 * (s.readByte (off + len - 1)).toNat + (s.readByte (off + len - 2)).toNat := by
  simp only [frameValid, Bool.and_eq_true, decide_eq_true_eq, beq_iff_eq, ← BitVec.toNat_inj,
    toNat_joinBytes]

/-- CHKCRC compares the trailer byte by byte, validity as one number: the verdicts are one. -/
theorem trailerMatches_payloadCrc (s : State) {off len : Nat} (long : 2 < len) :
    s.trailerMatches off len (s.payloadCrc off len) = s.frameValid off len := by
  have lowByte := (s.readByte (off + len - 2)).isLt
  rw [Bool.eq_iff_iff, trailerMatches_iff, frameValid_iff_toNat]
  omega

theorem frameValid_short (s : State) {off len : Nat} (short : len ≤ 2) :
    s.frameValid off len = false := by
  rw [← Bool.not_eq_true, frameValid_iff_toNat]
  exact fun valid => Nat.not_le.2 valid.1 short

end State

/-- Where CHKCRC takes no fault, OK holds whether the frame is valid. -/
theorem exec_chkcrc_holdsOk_frameValid {off len : Half} {s : State} (clear : s.fault = false)
    (unfaulted : len.toNat ≤ 2 ∨ off.toNat + len.toNat ≤ s.cfg.bufLen) :
    ∃ t, exec (.chkcrc off len) s = .next t ∧
      holdsOk t (s.frameValid off.toNat len.toNat) := by
  rcases Nat.lt_or_ge 2 len.toNat with long | short
  · have inside := unfaulted.resolve_left (Nat.not_le.2 long)
    exact ⟨_, exec_chkcrc_of_inside clear long inside, s.trailerMatches_payloadCrc long, rfl⟩
  · exact ⟨_, exec_chkcrc_short clear short, (s.frameValid_short short).symm, rfl⟩

/-- Settles O41: OK holds the frame's validity. -/
theorem chkcrcAcceptsExactlyValidFrames : Obligations.ChkcrcAcceptsExactlyValidFrames := by
  intro off len s clear unfaulted
  obtain ⟨t, answers, verdict, written⟩ := exec_chkcrc_holdsOk_frameValid clear unfaulted
  refine ⟨t, answers, written, ?_⟩
  rw [verdict]
  exact s.frameValid_iff_toNat off.toNat len.toNat

/-! ### A sealed frame checks (R114) -/

/-- Sealing a frame leaves its payload's CRC, which the valid trailer holds. -/
theorem State.payloadCrc_sealed (s : State) {off len : Half} (long : 2 < len.toNat) :
    (s.sealed off len).payloadCrc off.toNat len.toNat = s.payloadCrc off.toNat len.toNat :=
  have ⟨_, trailer⟩ := (frameValid_iff _ _ _).1 (s.frameValid_sealed long)
  trailer.symm.trans (s.readTrailer_writeTrailer _ _)

/-- Settles O40: APPCRC leaves a valid frame with the payload it had. -/
theorem sealedFrameChecks : Obligations.SealedFrameChecks := by
  constructor
  · intro off len s clear long inside
    refine ⟨_, _, exec_appcrc_of_inside clear long inside,
      exec_chkcrc_of_inside (s := s.sealed off len) clear long inside, ⟨?_, rfl⟩, rfl, ?_, rfl⟩
    · calc (s.sealed off len).trailerMatches off.toNat len.toNat _
        _ = (s.sealed off len).frameValid off.toNat len.toNat :=
          State.trailerMatches_payloadCrc _ long
        _ = true := s.frameValid_sealed long
    · exact s.payloadCrc_sealed long
  · intro off len s clear short
    exact ⟨_, _, exec_appcrc_short clear short,
      exec_chkcrc_short (s := s.setOk false) clear short, ⟨rfl, rfl⟩, ⟨rfl, rfl⟩⟩

/-- Settles O42: the buffer bound is the only limit on a len above 2. -/
theorem frameCommandsHaveNoOtherLengthLimit :
    Obligations.FrameCommandsHaveNoOtherLengthLimit := by
  intro off len s clear large inside
  have long : 2 < len.toNat := by omega
  exact ⟨⟨_, exec_chkcrc_of_inside clear long inside, clear, rfl, rfl⟩,
    ⟨_, exec_appcrc_of_inside clear long inside, clear, rfl, rfl⟩⟩

/-! ### An error in one byte is detected (R115)

A whole valid frame has CRC 0 (R83), so that payload and trailer need no separate argument: a frame
that differs from it in one byte has another CRC, and so is not valid. -/

theorem crc16Step_zero_byte_ne {e : Byte} (h : e ≠ 0) : crc16Step 0 e ≠ 0 := by
  intro lost
  have extended : e.zeroExtend 16 = 0 := by simpa using crcBits_eq_zero 8 _ lost
  rw [← BitVec.toNat_inj, BitVec.toNat_setWidth_of_le (by decide)] at extended
  exact h (BitVec.eq_of_toNat_eq extended)

/-- Sequences that differ in one byte have different CRCs, from any accumulator on. -/
theorem crcFold_ne_of_byte_ne (c : Half) (before after : List Byte) {b b' : Byte} (h : b' ≠ b) :
    crcFold c (before ++ b' :: after) ≠ crcFold c (before ++ b :: after) := by
  have difference : b' = b ^^^ (b ^^^ b') := by
    rw [← BitVec.xor_assoc, BitVec.xor_self, BitVec.zero_xor]
  have nonzero : b ^^^ b' ≠ 0 := fun same => h (BitVec.xor_eq_zero_iff.1 same).symm
  rw [crcFold_append, crcFold_append, crcFold, crcFold, difference, crc16Step_byte_difference]
  exact crcFold_difference_ne _ _ after (crc16Step_zero_byte_ne nonzero)

namespace State
variable (s : State) {off len a : Nat} {v : Byte}

/-- The bytes of a range, taken apart at an address in it. -/
theorem readBytes_split_at (lower : off ≤ a) (upper : a < off + len) :
    s.readBytes off len =
      s.readBytes off (a - off) ++ s.readByte a :: s.readBytes (a + 1) (off + len - (a + 1)) := by
  have length : len = (a - off) + (off + len - (a + 1) + 1) := by omega
  calc s.readBytes off len
    _ = s.readBytes off ((a - off) + (off + len - (a + 1) + 1)) := by rw [← length]
    _ = _ := by rw [readBytes_add, Nat.add_sub_cancel' lower, readBytes]

theorem crc16_writeByte_ne (lower : off ≤ a) (upper : a < off + len) (changed : v ≠ s.readByte a) :
    crc16 ((s.writeByte a v).readBytes off len) ≠ crc16 (s.readBytes off len) := by
  have before : (s.writeByte a v).readBytes off (a - off) = s.readBytes off (a - off) :=
    readBytes_congr _ _ _ _ fun k hk => s.readByte_writeByte_other _ _ _ (by omega)
  have after : (s.writeByte a v).readBytes (a + 1) (off + len - (a + 1)) =
      s.readBytes (a + 1) (off + len - (a + 1)) :=
    readBytes_congr _ _ _ _ fun k hk => s.readByte_writeByte_other _ _ _ (by omega)
  rw [readBytes_split_at _ lower upper, s.readBytes_split_at lower upper, before, after,
    readByte_writeByte_same]
  exact crcFold_ne_of_byte_ne crcInit _ _ changed

/-- A valid frame with one byte changed is not valid. -/
theorem frameValid_writeByte (valid : s.frameValid off len = true) (lower : off ≤ a)
    (upper : a < off + len) (changed : v ≠ s.readByte a) :
    (s.writeByte a v).frameValid off len = false := by
  rw [← Bool.not_eq_true]
  intro stillValid
  refine s.crc16_writeByte_ne lower upper changed ?_
  rw [crc16_of_frameValid stillValid, crc16_of_frameValid valid]

end State

theorem xor_twoPow_ne (b : Byte) {k : Nat} (h : k < 8) : b ^^^ BitVec.twoPow 8 k ≠ b := by
  intro same
  have bit := congrArg (BitVec.getLsbD · k) same
  simp [h] at bit

/-- Settles O43: a flipped bit changes one byte of the valid frame. -/
theorem singleBitErrorIsDetected : Obligations.SingleBitErrorIsDetected := by
  intro off len s a k clear _ inside valid lower upper bit
  obtain ⟨t, answers, verdict⟩ := exec_chkcrc_holdsOk_frameValid (off := off) (len := len)
    (s := s.writeByte a (s.readByte a ^^^ BitVec.twoPow 8 k)) clear (.inr inside)
  rw [s.frameValid_writeByte valid lower upper (xor_twoPow_ne _ bit)] at verdict
  exact ⟨t, answers, verdict⟩

/-! ### CHKCRC and APPCRC, whole (R110, R113) -/

theorem State.readByte_writeTrailer_lo (s : State) (o : Nat) (c : Half) :
    (s.writeTrailer o c).readByte o = loByte c := by
  simp [writeTrailer, readByte_writeByte]

theorem State.readByte_writeTrailer_hi (s : State) (o : Nat) (c : Half) :
    (s.writeTrailer o c).readByte (o + 1) = hiByte c := by
  simp [writeTrailer]

/-- Settles O28: CHKCRC writes R and OK alone, or OK alone where len is at most 2, and its words have
RSV and FC 0. -/
theorem chkcrcChecksTheTrailer : Obligations.ChkcrcChecksTheTrailer := by
  refine ⟨fun off len s clear long inside => ?_,
    fun off len s clear short => ⟨_, exec_chkcrc_short clear short, setOk_frame s false⟩,
    fun off len s => exec_chkcrc_of_outside,
    wordForm_of .chkcrc _ _ (fun w => ?_) fun _ _ => rfl⟩
  · obtain ⟨result, ⟨-, written⟩, frame⟩ := setR_setOk_frame s (s.payloadCrc off.toNat len.toNat)
      (s.trailerMatches off.toNat len.toNat (s.payloadCrc off.toNat len.toNat))
    exact ⟨_, exec_chkcrc_of_inside clear long inside, result, written,
      s.trailerMatches_iff _ _ _, frame⟩
  · simp [zeroFieldsOk_iff, Opcode.code]

/-- Settles O29: APPCRC's write footprint is the trailer, which it leaves low byte first; where len
is at most 2 it writes OK alone. -/
theorem appcrcWritesTheTrailer : Obligations.AppcrcWritesTheTrailer := by
  refine ⟨fun off len s clear long inside => ?_,
    fun off len s clear short => ⟨_, exec_appcrc_short clear short, setOk_frame s false⟩,
    fun off len s => exec_appcrc_of_outside,
    wordForm_of .appcrc _ _ (fun w => ?_) fun _ _ => rfl⟩
  · have last : off.toNat + len.toNat - 1 = off.toNat + len.toNat - 2 + 1 := by omega
    rw [last]
    refine ⟨_, exec_appcrc_of_inside clear long inside, ⟨rfl, rfl⟩, ⟨rfl, rfl⟩, ?_, ?_,
      fun a notLow notHigh => s.readByte_writeTrailer_other _ a _ (by omega),
      fun _ => rfl, ⟨rfl, rfl, rfl⟩, ⟨rfl, rfl, rfl, rfl⟩, rfl⟩
    · exact (congrArg BitVec.toNat (s.readByte_writeTrailer_lo _ _)).trans (toNat_loByte _)
    · exact (congrArg BitVec.toNat (s.readByte_writeTrailer_hi _ _)).trans (toNat_hiByte _)
  · simp [zeroFieldsOk_iff, Opcode.code]

end Sys2Proof.Machine

namespace Sys2Proof.Machine

/-! ### The faulted state (R127) -/

section Faulted
variable {s t : State}

theorem exec_of_faulted (faulted : s.fault = true) (i : Instr) :
    exec i s = .fault .commandWhileFaulted :=
  (exec_eq i s).trans (s.accept_faulted _ faulted)

theorem issueWord_of_faulted (faulted : s.fault = true) (w : Cmd) :
    issueWord w s = .fault .commandWhileFaulted := by
  unfold issueWord
  cases decode w with
  | ok i => exact exec_of_faulted faulted i
  | error e => exact s.accept_faulted _ faulted

theorem hostMove_resetDuring_of_faulted (faulted : s.fault = true) (w : Cmd) :
    hostMove (.resetDuring w) s = .fault .commandWhileFaulted :=
  s.accept_faulted _ faulted

/-- In a faulted state a move that has a step is a reset between commands, or an access that leaves
FAULT and the record. -/
theorem hostMove_next_of_faulted {m : HostMove} (faulted : s.fault = true)
    (h : hostMove m s = .next t) : m = .reset ∨ sameRecord s t := by
  rcases eq_or_ne m .reset with reset | notReset
  · exact .inl reset
  have notDuring : ∀ w, m ≠ .resetDuring w := by
    rintro w rfl
    rw [hostMove_resetDuring_of_faulted faulted] at h
    cases h
  rcases hostMove_next m s t ⟨notReset, notDuring⟩ h with
    ⟨w, -, hw⟩ | ⟨d, rfl⟩ | ⟨a, v, -, rfl⟩ | ⟨i, v, -, rfl⟩
  · rw [issueWord_of_faulted faulted] at hw
    cases hw
  · exact .inr ⟨rfl, rfl, rfl⟩
  · exact .inr ⟨rfl, rfl, rfl⟩
  · exact .inr ⟨rfl, rfl, rfl⟩

/-- A step from a faulted state that takes a move takes a reset between commands, or leaves FAULT
and the record. -/
theorem step_next_of_faulted {m : HostMove} {rest : List HostMove} (faulted : s.fault = true)
    (hmoves : s.hostMoves = m :: rest) (h : step s = .next t) : m = .reset ∨ sameRecord s t := by
  rw [step_cons s m rest hmoves] at h
  exact hostMove_next_of_faulted (s := { s with hostMoves := rest }) faulted h

end Faulted

/-- Settles O12: no command is taken, and a step that is no reset between commands leaves FAULT
set. -/
theorem faultedStateTakesNoCommand : Obligations.FaultedStateTakesNoCommand := by
  refine ⟨fun _ w faulted => issueWord_of_faulted faulted w,
    fun _ i faulted => exec_of_faulted faulted i,
    fun _ w faulted => hostMove_resetDuring_of_faulted faulted w, runSucceeds_faulted, ?_⟩
  intro s t faulted h unfaulted
  have notSame : t.fault ≠ s.fault := by simp [faulted, unfaulted]
  cases hmoves : s.hostMoves with
  | nil =>
    rw [step_nil s hmoves, next_eq_next] at h
    exact absurd (congrArg State.fault h) notSame
  | cons m rest =>
    obtain rfl | ⟨same, -⟩ := step_next_of_faulted faulted hmoves h
    · exact ⟨rest, rfl⟩
    · exact absurd same notSame

/-! ### Taking a fault (R120, R121, R122, R124) -/

/-- A word that answers a faulted state took one of the two faults: IllegalCommand where it is no
command, and OperandFault where it is one. -/
theorem issueWord_next_fault {w : Cmd} {s t : State} (h : issueWord w s = .next t)
    (faulted : t.fault = true) :
    (t = s.raise .illegalCommand w ∧ ∀ i, decode w ≠ .ok i) ∨
      (t = s.raise .operandFault w ∧ ∃ i, decode w = .ok i) := by
  rcases (issueWord_next w s t).1 h with ⟨i, hw, hi⟩ | ⟨e, hw, -, rfl⟩
  · obtain ⟨clear, ⟨-, rfl⟩ | ⟨-, rfl⟩⟩ := (exec_next i s t).1 hi
    · simp [clear] at faulted
    · rw [decode_eq_ok_iff_encode.1 hw]
      exact .inr ⟨rfl, i, hw⟩
  · exact .inl ⟨rfl, by simp [hw]⟩

/-- Settles O15: each of the two faults is `State.raise`. -/
theorem faultWritesOnlyMarkAndRecord : Obligations.FaultWritesOnlyMarkAndRecord := by
  intro w s t _ h faulted
  obtain ⟨rfl, -⟩ | ⟨rfl, -⟩ := issueWord_next_fault h faulted
  · rfl
  · rfl

/-- Settles O16: each of the two faults records the word, the invariant ties the cause to FAULT, and
a faulted state keeps its record through every move but a reset. -/
theorem faultRecordIsWrittenOnce : Obligations.FaultRecordIsWrittenOnce := by
  refine ⟨fun w s t _ h faulted => ?_, fun s t inv h unfaulted => ?_,
    fun s t m rest faulted hmoves noReset h => ?_⟩
  · obtain ⟨rfl, isNone⟩ | ⟨rfl, isCommand⟩ := issueWord_next_fault h faulted
    · exact ⟨rfl, .inl ⟨rfl, isNone⟩⟩
    · exact ⟨rfl, .inr ⟨rfl, isCommand⟩⟩
  · obtain ⟨-, -, -, -, -, clear_iff, -⟩ := stepKeepsTheInvariant s t inv h
    rw [clear_iff.1 unfaulted]
    rfl
  · refine (step_next_of_faulted faulted hmoves h).resolve_left ?_
    rintro rfl
    cases noReset

/-! ### Bounds (R44, R120) -/

/-- A command whose footprint fits completes without a fault, while FAULT is clear. -/
theorem exec_completes_of_fits {i : Instr} {s : State} (clear : s.fault = false)
    (fits : footprintFits s.cfg (footprint i) = true) :
    ∃ t, exec i s = .next t ∧ t.fault = false :=
  ⟨effect i s, exec_of_fits clear fits, (effect_fault i s).trans clear⟩

/-- CHKCRC reaches nothing where len is at most 2. -/
theorem footprint_chkcrc_short (off len : Half) (short : len.toNat ≤ 2) :
    footprint (.chkcrc off len) = ⟨none, none, none, none⟩ :=
  if_pos short

/-- Settles O14: a command does its effect or takes OperandFault by whether its footprint fits, and
an empty footprint fits. -/
theorem operandFaultExactlyWhenFootprintBreaksABound :
    Obligations.OperandFaultExactlyWhenFootprintBreaksABound := by
  refine ⟨fun _ _ => exec_completes_of_fits, fun _ _ => exec_of_not_fits, fun _ _ _ => rfl,
    fun c off len short => ⟨?_, ?_⟩⟩
  · rw [footprint_chkcrc_short off len short]
    rfl
  · rw [footprint_appcrc_short off len short]
    rfl

/-! ### OK = 0 without a fault (R123) -/

theorem effect_chkcrc_short (off : Half) {len : Half} (s : State) (short : len.toNat ≤ 2) :
    effect (.chkcrc off len) s = s.setOk false := if_pos short

theorem effect_appcrc_short (off : Half) {len : Half} (s : State) (short : len.toNat ≤ 2) :
    effect (.appcrc off len) s = s.setOk false := if_pos short

theorem effect_chkcrc_long (off : Half) {len : Half} (s : State) (long : 2 < len.toNat) :
    effect (.chkcrc off len) s = s.checked off len := if_neg (Nat.not_le.2 long)

theorem effect_appcrc_long (off : Half) {len : Half} (s : State) (long : 2 < len.toNat) :
    effect (.appcrc off len) s = s.sealed off len := if_neg (Nat.not_le.2 long)

/-- CHKCRC of a frame gives OK = 0 exactly when the trailer is not the payload's CRC. -/
theorem State.checked_ok_eq_false_iff (s : State) (off : Half) {len : Half}
    (long : 2 < len.toNat) :
    (s.checked off len).ok = false ↔
      s.readTrailer (off.toNat + len.toNat - 2) ≠ s.payloadCrc off.toNat len.toNat := by
  rw [setOk_ok, s.trailerMatches_payloadCrc long, ← Bool.not_eq_true, s.frameValid_iff]
  exact not_congr (and_iff_right long)

/-- What a command leaves in OK is 0 in three cases. -/
theorem effect_ok_eq_false_iff (i : Instr) (s : State) :
    (effect i s).ok = false ↔
      (∃ off len, i = .chkcrc off len ∧ len.toNat ≤ 2) ∨
      (∃ off len, i = .chkcrc off len ∧ 2 < len.toNat ∧
        s.readTrailer (off.toNat + len.toNat - 2) ≠ s.payloadCrc off.toNat len.toNat) ∨
      (∃ off len, i = .appcrc off len ∧ len.toNat ≤ 2) := by
  cases i with
  | chkcrc off len =>
    rcases Nat.lt_or_ge 2 len.toNat with long | short
    · rw [effect_chkcrc_long off s long, s.checked_ok_eq_false_iff off long]
      simp [long, Nat.not_le.2 long]
    · rw [effect_chkcrc_short off s short]
      simp [short]
  | appcrc off len =>
    rcases Nat.lt_or_ge 2 len.toNat with long | short
    · rw [effect_appcrc_long off s long]
      simp [Nat.not_le.2 long]
    · rw [effect_appcrc_short off s short]
      simp [short]
  | _ => simp [effect]

/-- Settles O17: of the three cases two write OK alone, and CHKCRC of a frame writes R and OK. -/
theorem statusFailuresAreExactlyThree : Obligations.StatusFailuresAreExactlyThree := by
  intro i s t _ h unfaulted
  obtain ⟨-, ⟨-, rfl⟩ | ⟨-, rfl⟩⟩ := (exec_next i s t).1 h
  · refine ⟨effect_okWritten i s, effect_ok_eq_false_iff i s, fun failed => ?_⟩
    rcases (effect_ok_eq_false_iff i s).1 failed with
      ⟨off, len, rfl, short⟩ | ⟨off, len, rfl, long, -⟩ | ⟨off, len, rfl, short⟩
    · rw [effect_chkcrc_short off s short]
      obtain ⟨-, result, bytes, bits, record, -⟩ := setOk_frame s false
      exact ⟨bytes, bits, record, .inl result⟩
    · rw [effect_chkcrc_long off s long]
      obtain ⟨result, -, bytes, bits, record, -⟩ :=
        setR_setOk_frame s (s.payloadCrc off.toNat len.toNat) _
      exact ⟨bytes, bits, record, .inr ⟨off, len, rfl, long, result⟩⟩
    · rw [effect_appcrc_short off s short]
      obtain ⟨-, result, bytes, bits, record, -⟩ := setOk_frame s false
      exact ⟨bytes, bits, record, .inl result⟩
  · cases unfaulted

/-! ### The order of the checks (R125) -/

theorem issueWord_of_error {w : Cmd} {e : DecodeError} {s : State} (clear : s.fault = false)
    (h : decode w = .error e) : issueWord w s = .next (s.raise .illegalCommand w) :=
  issueWord_illegal w s clear (by simp [h])

theorem decode_of_reserved {w : Cmd} (h : Opcode.ofByte (fieldOPC w) = none) :
    decode w = .error .reservedOpcode := by
  simp [decode, h]

theorem decode_of_nonzero {w : Cmd} {op : Opcode} (hop : Opcode.ofByte (fieldOPC w) = some op)
    (h : zeroFieldsOk op w = false) : decode w = .error .nonzeroReserved := by
  simp [decode, hop, h]

/-- Settles O18: the decoder makes the first two checks, a short frame command writes OK alone, and
the bounds decide between OperandFault and the effect. -/
theorem checksRunInOrder : Obligations.ChecksRunInOrder := by
  intro w s clear
  refine ⟨fun reserved => issueWord_of_error clear (decode_of_reserved reserved), fun op hop =>
    ⟨fun nonzero => issueWord_of_error clear (decode_of_nonzero hop nonzero), fun zero => ?_⟩⟩
  rw [issueWord_ok w s op hop zero]
  refine ⟨?_, fun _ => ⟨fun outside => ?_, fun fits => ⟨rfl, exec_completes_of_fits clear fits⟩⟩⟩
  · rintro (rfl | rfl) short
    · exact exec_chkcrc_short clear short
    · exact exec_appcrc_short clear short
  · rw [exec_of_not_fits clear outside,
      encode_takeOperands ((Opcode.ofByte_eq_some _ op).1 hop) zero]

/-! ### The success of a run (R127, R148) -/

/-- FAULT is clear in every state of a run up to the k-th. -/
def State.clearUpTo (k : Nat) (s : State) : Prop :=
  ∀ j, j ≤ k → ∃ u : State, Host.Core.run Sys2Proof.core j s = .next u ∧ u.fault = false

/-- The run from a state comes to an end, and FAULT is clear in every state of it up to there. -/
def State.endsClear (s : State) : Prop :=
  ∃ (k : Nat) (t : State), Host.Core.run Sys2Proof.core k s = .next t ∧ t.ended ∧ s.clearUpTo k

theorem run_succ_of_step {s u : State} (h : step s = .next u) (k : Nat) (t : State) :
    Host.Core.run Sys2Proof.core (k + 1) s = .next t ↔
      Host.Core.run Sys2Proof.core k u = .next t := by
  simp [run_succ_next, h]

namespace State
variable {s u : State}

theorem clearUpTo.start {k : Nat} (h : s.clearUpTo k) : s.fault = false := by
  obtain ⟨v, hv, clear⟩ := h 0 (Nat.zero_le k)
  rwa [(run_zero_next s v).1 hv] at clear

theorem clearUpTo_zero : s.clearUpTo 0 ↔ s.fault = false := by
  refine ⟨clearUpTo.start, fun clear j hj => ⟨s, ?_, clear⟩⟩
  rw [Nat.le_zero.1 hj]
  rfl

theorem clearUpTo_succ (h : step s = .next u) (k : Nat) :
    s.clearUpTo (k + 1) ↔ s.fault = false ∧ u.clearUpTo k := by
  constructor
  · intro clear
    refine ⟨clear.start, fun j hj => ?_⟩
    simpa only [run_succ_of_step h] using clear (j + 1) (Nat.succ_le_succ hj)
  · rintro ⟨here, later⟩ j hj
    cases j with
    | zero => exact ⟨s, rfl, here⟩
    | succ j => simpa only [run_succ_of_step h] using later j (Nat.le_of_succ_le_succ hj)

/-! `endsClear` meets the equations of `runSucceeds`. -/

theorem endsClear_ended (ended : s.ended) : s.endsClear ↔ s.fault = false :=
  ⟨fun ⟨_, _, _, _, clear⟩ => clear.start,
    fun clear => ⟨0, s, rfl, ended, clearUpTo_zero.2 clear⟩⟩

/-- A run that has not ended and ends takes a step. -/
theorem endsClear.exists_step (notEnded : ¬ s.ended) (h : s.endsClear) :
    ∃ v, step s = .next v ∧ v.endsClear ∧ s.fault = false := by
  obtain ⟨k, t, run, ended, clear⟩ := h
  cases k with
  | zero => exact absurd ((run_zero_next s t).1 run ▸ ended) notEnded
  | succ k =>
    obtain ⟨v, hstep, later⟩ := (run_succ_next k s t).1 run
    obtain ⟨here, clearLater⟩ := (clearUpTo_succ hstep k).1 clear
    exact ⟨v, hstep, ⟨k, t, later, ended, clearLater⟩, here⟩

theorem endsClear_step (notEnded : ¬ s.ended) (h : step s = .next u) :
    s.endsClear ↔ s.fault = false ∧ u.endsClear := by
  constructor
  · intro ends
    obtain ⟨v, hv, later, here⟩ := ends.exists_step notEnded
    obtain rfl := (next_eq_next u v).1 (h.symm.trans hv)
    exact ⟨here, later⟩
  · rintro ⟨here, k, t, run, ended, clear⟩
    exact ⟨k + 1, t, (run_succ_of_step h k t).2 run, ended, (clearUpTo_succ h k).2 ⟨here, clear⟩⟩

theorem endsClear_stop (notEnded : ¬ s.ended) (h : ∀ v, step s ≠ .next v) : ¬ s.endsClear := by
  intro ends
  obtain ⟨v, hv, -⟩ := ends.exists_step notEnded
  exact h v hv

end State

theorem runSucceeds_iff_endsClear_of_ended {s : State} (ended : s.ended) :
    s.runSucceeds = true ↔ s.endsClear := by
  rw [runSucceeds_ended s ended, State.endsClear_ended ended, Bool.not_eq_true']

/-- By induction on the host's moves to come, of which a step takes one. -/
theorem runSucceeds_iff_endsClear (moves : List HostMove) (s : State)
    (hmoves : s.hostMoves = moves) :
    s.runSucceeds = true ↔ s.endsClear := by
  induction moves generalizing s with
  | nil => exact runSucceeds_iff_endsClear_of_ended (by rw [State.ended, hmoves]; rfl)
  | cons m rest ih =>
    by_cases ended : s.ended
    · exact runSucceeds_iff_endsClear_of_ended ended
    by_cases stops : ∀ u, step s ≠ .next u
    · simp [runSucceeds_stop s ended stops, State.endsClear_stop ended stops]
    · obtain ⟨u, hu⟩ := not_forall_not.1 stops
      rw [runSucceeds_step s u ended hu, State.endsClear_step ended hu,
        ← ih u (step_hostMoves s u m rest hmoves hu)]
      simp

/-- Settles O54: both sides go from a state that has not ended to its next state in the same way. -/
theorem runSucceedsExactlyWhenNeverFaulted : Obligations.RunSucceedsExactlyWhenNeverFaulted :=
  fun s => runSucceeds_iff_endsClear s.hostMoves s rfl

end Sys2Proof.Machine

namespace Sys2Proof.Machine

/-! ### A command completes (R150) -/

/-- Settles O13: a command has its effect or takes OperandFault, and any other word takes
IllegalCommand. -/
theorem everyIssuedCommandCompletes : Obligations.EveryIssuedCommandCompletes := by
  intro w s clear
  cases hw : decode w with
  | error e => exact ⟨_, issueWord_of_error clear hw⟩
  | ok i =>
    rw [issueWord_of_decode hw]
    cases fits : footprintFits s.cfg (footprint i) with
    | true => exact ⟨_, exec_of_fits clear fits⟩
    | false => exact ⟨_, exec_of_not_fits clear fits⟩

/-! ### Reset (R140, R141) -/

/-- Reset has one outcome, also where it abandons a command. -/
theorem hostMove_of_reset {m : HostMove} {s : State}
    (reset : m = .reset ∨ s.fault = false ∧ ∃ w, m = .resetDuring w) :
    hostMove m s = .next s.applyReset := by
  obtain rfl | ⟨clear, w, rfl⟩ := reset
  · rfl
  · exact (hostMove_resetDuring_next w s _).2 ⟨clear, rfl⟩

/-- Settles O44: the step leaves `State.applyReset` of the state with the move taken, whose marks
are clear, so that R and OK cannot be read and a command completes. -/
theorem resetLeavesDrawsAndClearMarks : Obligations.ResetLeavesDrawsAndClearMarks := by
  intro s m rest hmoves reset
  obtain ⟨readR, readOk⟩ := unwrittenResultCannotBeRead
  have hstep : step s = .next (State.applyReset { s with hostMoves := rest }) :=
    (step_cons s m rest hmoves).trans (hostMove_of_reset reset)
  exact ⟨_, hstep, rfl, rfl, rfl, rfl, readR _ rfl, rfl, readOk _ rfl, rfl,
    State.readByte_applyReset _, State.readBit_applyReset _,
    fun w => everyIssuedCommandCompletes w _ rfl, rfl, rfl, rfl⟩

/-- Settles O45: nothing is written yet, so that each byte and bit is its draw. -/
theorem resetStateIsAsTheSpecSays : Obligations.ResetStateIsAsTheSpecSays :=
  ⟨rfl, rfl, rfl, rfl, rfl, rfl, fun _ => rfl, fun _ => rfl⟩

/-- Settles O49: the default parameters are legal, and B and BA list nothing. -/
theorem resetMeetsTheInvariant : Obligations.ResetMeetsTheInvariant :=
  ⟨rfl, rfl, rfl, rfl, rfl, ⟨fun _ => rfl, fun _ => rfl⟩, fun written => written⟩

/-! ### The host's accesses (R146) -/

namespace State

/-- A write of a byte leaves everything else of the state. -/
theorem writeByte_frame (s : State) (a : Nat) (v : Byte) :
    (s.writeByte a v).readByte a = v ∧
      (∀ x, x ≠ a → (s.writeByte a v).readByte x = s.readByte x) ∧ sameBA s (s.writeByte a v) ∧
      sameR s (s.writeByte a v) ∧ sameOk s (s.writeByte a v) ∧ sameRecord s (s.writeByte a v) ∧
      sameSetting s (s.writeByte a v) ∧ (s.writeByte a v).padDraws = s.padDraws :=
  ⟨s.readByte_writeByte_same a v, fun x h => s.readByte_writeByte_other a x v h, fun _ => rfl,
    ⟨rfl, rfl⟩, ⟨rfl, rfl⟩, ⟨rfl, rfl, rfl⟩, ⟨rfl, rfl, rfl, rfl⟩, rfl⟩

/-- A write of a bit leaves everything else of the state. -/
theorem writeBit_frame (s : State) (i : Nat) (v : Bool) :
    (s.writeBit i v).readBit i = v ∧
      (∀ x, x ≠ i → (s.writeBit i v).readBit x = s.readBit x) ∧ sameB s (s.writeBit i v) ∧
      sameR s (s.writeBit i v) ∧ sameOk s (s.writeBit i v) ∧ sameRecord s (s.writeBit i v) ∧
      sameSetting s (s.writeBit i v) ∧ (s.writeBit i v).padDraws = s.padDraws :=
  ⟨s.readBit_writeBit_same i v, fun x h => s.readBit_writeBit_other i x v h, fun _ => rfl,
    ⟨rfl, rfl⟩, ⟨rfl, rfl⟩, ⟨rfl, rfl, rfl⟩, ⟨rfl, rfl, rfl, rfl⟩, rfl⟩

/-- The record as the host reads it holds its word while the cause is not 0. -/
theorem faultRecord_eq (s : State) :
    ∃ word, s.faultRecord = .record s.fault s.cause word ∧
      (s.cause ≠ .noFault → word = some s.faultWord) :=
  ⟨_, rfl, fun caused => if_neg caused⟩

end State

section Outside
variable {s : State}

theorem hostMove_writeByte_of_outside {a : Nat} (outside : s.cfg.bufLen ≤ a) (v : Byte) :
    hostMove (.writeByte a v) s = .refused (.hostAccessOutsideB a) :=
  if_neg (Nat.not_lt.2 outside)

theorem hostMove_readByte_of_outside {a : Nat} (outside : s.cfg.bufLen ≤ a) :
    hostMove (.readByte a) s = .refused (.hostAccessOutsideB a) :=
  if_neg (Nat.not_lt.2 outside)

theorem hostMove_writeBit_of_outside {i : Nat} (outside : s.cfg.bitLen ≤ i) (v : Bool) :
    hostMove (.writeBit i v) s = .refused (.hostAccessOutsideBA i) :=
  if_neg (Nat.not_lt.2 outside)

theorem hostMove_readBit_of_outside {i : Nat} (outside : s.cfg.bitLen ≤ i) :
    hostMove (.readBit i) s = .refused (.hostAccessOutsideBA i) :=
  if_neg (Nat.not_lt.2 outside)

end Outside

/-- Settles O47: a write inside a memory has its frame, a read inside it returns what is there, and
an access outside is refused. -/
theorem hostAccessesActAsTheTableSays : Obligations.HostAccessesActAsTheTableSays := by
  intro s
  obtain ⟨word, record, holdsWord⟩ := s.faultRecord_eq
  refine ⟨fun a v inside => ?writeByte, fun a inside => ?readByte, fun i v inside => ?writeBit,
    fun i inside => ?readBit, fun written => ?readR, fun written => ?readOk, ?readFault,
    fun a v outside => ?outsideB, fun i v outside => ?outsideBA⟩
  case writeByte =>
    exact ⟨_, (hostMove_writeByte_next a v s _).2 ⟨inside, rfl⟩, s.writeByte_frame a v⟩
  case readByte => exact (hostMove_readByte_next a s _).2 ⟨inside, rfl⟩
  case writeBit =>
    exact ⟨_, (hostMove_writeBit_next i v s _).2 ⟨inside, rfl⟩, s.writeBit_frame i v⟩
  case readBit => exact (hostMove_readBit_next i s _).2 ⟨inside, rfl⟩
  case readR => rw [hostMove_readR_next, observedR_written s written]
  case readOk => rw [hostMove_readOk_next, observedOk_written s written]
  case readFault => exact ⟨word, by rw [hostMove_readFault_next, record], holdsWord⟩
  case outsideB =>
    exact ⟨hostMove_writeByte_of_outside outside v, hostMove_readByte_of_outside outside⟩
  case outsideBA =>
    exact ⟨hostMove_writeBit_of_outside outside v, hostMove_readBit_of_outside outside⟩

/-! ### A run without a reset (R127, R148) -/

/-- A step adds no move to the host's list. -/
theorem mem_of_mem_step_hostMoves {s u : State} (h : step s = .next u) {m : HostMove}
    (hm : m ∈ u.hostMoves) : m ∈ s.hostMoves := by
  cases hmoves : s.hostMoves with
  | nil =>
    rw [step_nil s hmoves, next_eq_next] at h
    rwa [h, hmoves] at hm
  | cons m' rest =>
    rw [step_hostMoves s u m' rest hmoves h] at hm
    exact List.mem_cons_of_mem m' hm

/-- A step that takes no reset leaves FAULT clear only where it was clear. -/
theorem fault_clear_of_step {s u : State} (noReset : ∀ m ∈ s.hostMoves, m.resets = false)
    (h : step s = .next u) (clear : u.fault = false) : s.fault = false := by
  by_contra faulted
  obtain ⟨-, -, -, -, onlyReset⟩ := faultedStateTakesNoCommand
  obtain ⟨rest, hmoves⟩ := onlyReset s u (eq_true_of_ne_false faulted) h clear
  have resets : HostMove.reset ∈ s.hostMoves := hmoves ▸ List.mem_cons_self
  exact absurd (noReset .reset resets) (by decide)

/-- By induction on the number of steps: FAULT is clear after the first step, and so was clear
before it. -/
theorem clearUpTo_of_run {k : Nat} {s t : State} (noReset : ∀ m ∈ s.hostMoves, m.resets = false)
    (run : Host.Core.run Sys2Proof.core k s = .next t) (clear : t.fault = false) :
    s.clearUpTo k := by
  induction k generalizing s with
  | zero =>
    obtain rfl := (run_zero_next s t).1 run
    exact State.clearUpTo_zero.2 clear
  | succ k ih =>
    obtain ⟨u, hstep, later⟩ := (run_succ_next k s t).1 run
    have clearLater : u.clearUpTo k :=
      ih (fun m hm => noReset m (mem_of_mem_step_hostMoves hstep hm)) later
    exact (State.clearUpTo_succ hstep k).2
      ⟨fault_clear_of_step noReset hstep clearLater.start, clearLater⟩

/-- Settles O52: FAULT, once set, stays set without a reset. -/
theorem successfulRunNeverFaulted : Obligations.SuccessfulRunNeverFaulted :=
  fun _ _ _ => clearUpTo_of_run

/-! ### The end of a run (R148) -/

/-- The run from a state comes to its end at another, the first of it with no command to come. -/
def State.endsAt (s t : State) : Prop :=
  t.ended ∧ ∃ k, Host.Core.run Sys2Proof.core k s = .next t ∧
    ∀ j, j < k → ∃ u : State, Host.Core.run Sys2Proof.core j s = .next u ∧ ¬ u.ended

/-- Before its end a run goes on with a step. -/
theorem endOfRun_next_iff {s : State} (notEnded : ¬ s.ended) (t : State) :
    s.endOfRun = .next t ↔ ∃ u, step s = .next u ∧ u.endOfRun = .next t := by
  by_cases stops : ∀ u, step s ≠ .next u
  · simp [endOfRun_stop s notEnded stops t, stops]
  · obtain ⟨u, hu⟩ := not_forall_not.1 stops
    simp [endOfRun_step s u notEnded hu, hu]

/-- The end of a run is where its last step leads. -/
theorem endOfRun_eq_step {s : State} (notEnded : ¬ s.ended)
    (last : ∀ u, step s = .next u → u.ended) : s.endOfRun = step s := by
  cases hstep : step s with
  | next u => rw [endOfRun_step s u notEnded hstep, endOfRun_ended u (last u hstep)]
  | _ =>
    unfold State.ended at notEnded
    unfold State.endOfRun
    cases hmoves : s.hostMoves with
    | nil => rw [hmoves] at notEnded; exact absurd rfl notEnded
    | cons m rest => rw [hmoves] at notEnded; simp [endAfter, notEnded, hstep]

namespace State
variable {s : State}

theorem endsAt_of_ended (ended : s.ended) (t : State) : s.endsAt t ↔ t = s := by
  constructor
  · rintro ⟨-, k, run, before⟩
    cases k with
    | zero => exact (run_zero_next s t).1 run
    | succ k =>
      obtain ⟨u, hu, notEnded⟩ := before 0 (Nat.succ_pos k)
      rw [(run_zero_next s u).1 hu] at notEnded
      exact absurd ended notEnded
  · rintro rfl
    exact ⟨ended, 0, rfl, fun _ hj => absurd hj (Nat.not_lt_zero _)⟩

/-- `endsAt` meets the equation of `endOfRun` before the end. -/
theorem endsAt_iff_step (notEnded : ¬ s.ended) (t : State) :
    s.endsAt t ↔ ∃ u, step s = .next u ∧ u.endsAt t := by
  constructor
  · rintro ⟨ended, k, run, before⟩
    cases k with
    | zero => exact absurd ((run_zero_next s t).1 run ▸ ended) notEnded
    | succ k =>
      obtain ⟨u, hstep, later⟩ := (run_succ_next k s t).1 run
      refine ⟨u, hstep, ended, k, later, fun j hj => ?_⟩
      simpa only [run_succ_of_step hstep] using before (j + 1) (Nat.succ_lt_succ hj)
  · rintro ⟨u, hstep, ended, k, later, before⟩
    refine ⟨ended, k + 1, (run_succ_of_step hstep k t).2 later, fun j hj => ?_⟩
    cases j with
    | zero => exact ⟨s, rfl, notEnded⟩
    | succ j => simpa only [run_succ_of_step hstep] using before j (Nat.lt_of_succ_lt_succ hj)

end State

/-- A run is its end, or a step and a run with one move less to come: what holds of an ended state,
and of a state before the end when it holds of the next one, holds of every state. -/
theorem run_induction {P : State → Prop} (ended : ∀ s : State, s.ended → P s)
    (steps : ∀ s : State, ¬ s.ended → (∀ u, step s = .next u → P u) → P s) (s : State) : P s := by
  induction hmoves : s.hostMoves generalizing s with
  | nil => exact ended s (by rw [State.ended, hmoves]; rfl)
  | cons m rest ih =>
    by_cases h : s.ended
    · exact ended s h
    · exact steps s h fun u hu => ih u (step_hostMoves s u m rest hmoves hu)

theorem endOfRun_next_iff_endsAt (s t : State) : s.endOfRun = .next t ↔ s.endsAt t := by
  induction s using run_induction with
  | ended s h => rw [endOfRun_ended s h, next_eq_next, State.endsAt_of_ended h]
  | steps s h ih =>
    rw [endOfRun_next_iff h, State.endsAt_iff_step h]
    exact exists_congr fun u => and_congr_right (ih u)

/-- Where a word is issued and no command follows, the run ends at once after it. -/
theorem endOfRun_of_last_issue {s : State} {w : Cmd} {rest : List HostMove}
    (hmoves : s.hostMoves = .issue w :: rest) (last : noCommand rest = true) :
    s.endOfRun = issueWord w { s with hostMoves := rest } := by
  have notEnded : ¬ s.ended := by simp [State.ended, hmoves, noCommand, HostMove.issues]
  rw [endOfRun_eq_step notEnded fun u hu => ?_, step_cons s _ rest hmoves]
  · rfl
  · rwa [State.ended, step_hostMoves s u _ rest hmoves hu]

theorem endOfRun_clear_of_runSucceeds (s : State) (h : s.runSucceeds = true) :
    ∃ t, s.endOfRun = .next t ∧ t.fault = false := by
  induction s using run_induction with
  | ended s ended =>
    rw [runSucceeds_ended s ended, Bool.not_eq_true'] at h
    exact ⟨s, endOfRun_ended s ended, h⟩
  | steps s notEnded ih =>
    by_cases stops : ∀ u, step s ≠ .next u
    · rw [runSucceeds_stop s notEnded stops] at h
      cases h
    · obtain ⟨u, hu⟩ := not_forall_not.1 stops
      rw [runSucceeds_step s u notEnded hu, Bool.and_eq_true] at h
      obtain ⟨-, later⟩ := h
      rw [endOfRun_step s u notEnded hu]
      exact ih u hu later

/-- Settles O53: both sides go from a state that has not ended to its next state in the same way,
and a last command's step is the last of the run. -/
theorem runEndsAsTheLastCommandLeftIt : Obligations.RunEndsAsTheLastCommandLeftIt :=
  ⟨endOfRun_next_iff_endsAt, fun _ _ _ => endOfRun_of_last_issue, endOfRun_clear_of_runSucceeds⟩

end Sys2Proof.Machine
